-- ==== Sys2Proof/Word.lean ====
section
/-! DEFINITION. The data types of the codec: octets, words, digits and frames (R9, R10, R45 to R50). -/

namespace Sys2Proof

/-- An octet, 0 to 255; a character is an octet holding its ASCII code (R10, R48). -/
abbrev Byte := BitVec 8

/-- A word: a 32-bit unsigned integer (R45). `+` and `*` on it are the spec's `+32` and `*32` (R9). -/
abbrev Word := BitVec 32

/-- A base-85 digit, a number 0 to 84 (R46). -/
abbrev Digit := Fin 85

/-- A frame: a finite sequence of octets indexed from 0 (R10, R27). -/
abbrev Frame := List Byte

/-- A binary block: 4 octets, `b0` at the lowest frame index (R50). -/
structure Block where
  b0 : Byte
  b1 : Byte
  b2 : Byte
  b3 : Byte
  deriving DecidableEq, Repr

/-- A digit group: 5 digits, `d0` the most significant (R47). -/
structure Group where
  d0 : Digit
  d1 : Digit
  d2 : Digit
  d3 : Digit
  d4 : Digit
  deriving DecidableEq, Repr

/-- A text group: 5 characters, `c0` at the lowest frame index (R49). -/
structure TextGroup where
  c0 : Byte
  c1 : Byte
  c2 : Byte
  c3 : Byte
  c4 : Byte
  deriving DecidableEq, Repr

end Sys2Proof
end

