-- ==== Sys2Proof/Config.lean ====
section
/-! DEFINITION. What is fixed for one machine: the constants of R7, the parameters of R8, and the values the spec
leaves open, as constants with no body. -/

namespace Sys2Proof

/-- RADIX, BLOCK_OCTETS and GROUP_CHARS: the block sizes, fixed by the source (R3, R7). -/
abbrev radix : Nat := 85
abbrev blockOctets : Nat := 4
abbrev groupChars : Nat := 5

/-- The forward view `FWD` of the alphabet: entry `v` is the character of digit `v` (R14, R19). -/
abbrev Alphabet := Vector Byte 85

/-- OVERFLOW_POLICY: what the decoder does with a group of value `2^32` or more (R8, R73). -/
inductive OverflowPolicy where
  /-- The default: the exact wrapped word, status `OK`. -/
  | wrapExact
  /-- A free 32-bit word per overflowing group. -/
  | anyValue
  /-- An overflowing group makes the operation fault. -/
  | fault
  deriving DecidableEq, Repr

/-- The parameters of R8, the arguments of the model. No operation writes them (R14, R18). -/
structure Config where
  /-- ALPHABET. -/
  alphabet : Alphabet
  /-- OVERFLOW_POLICY. -/
  overflow : OverflowPolicy
  /-- MAX_LEN; `none` is "unbounded". -/
  maxLen : Option Nat
  deriving DecidableEq, Repr

namespace Config

/-- FREE VALUE (log 4): the word of an overflowing group under ANY_VALUE (R73, U1). A function of the group, since
"`OUT[4g .. 4g+4]` depends on `IN[5g .. 5g+5]` and on nothing else" (R76). -/
opaque overflowWord : Group → Word

/-- FREE VALUES (log 13): the fields a response shape does not carry, on a port with fixed fields (R56, U11), and
`val_v` when `val_hit = 0` (R58). The argument counts what the host has read so far. -/
opaque freeErrChar : Nat → Byte
opaque freeErrPos : Nat → Nat
opaque freeValV : Nat → BitVec 7

end Config

end Sys2Proof
end

