-- ==== Sys2Proof/Machine/Alphabet.lean ====
section
/-! DEFINITION. The alphabet look-ups SYM and VAL, the conditions on an alphabet, and the default parameters
(R51 to R54, R63, R71). -/

namespace Sys2Proof.Machine

/-- SYM: entry `v` of the forward view (R63). -/
def symOf (a : Alphabet) (v : Digit) : Byte := a.get v

/-- The first index at or after `i` at which `c` stands in the rest of the table. -/
def findFrom (c : Byte) : Nat → List Byte → Option Nat
  | _, [] => none
  | i, x :: xs => if x = c then some i else findFrom c (i + 1) xs

/-- VAL: entry `c` of the reverse view `REV`, the inverse of the forward one: the digit whose character is `c`, or
none (R54, R71). -/
def valOf (a : Alphabet) (c : Byte) : Option Digit :=
  match findFrom c 0 a.toList with
  | none => none
  | some i => if h : i < 85 then some ⟨i, h⟩ else none

/-- A member: a character that occurs in the alphabet. -/
def isMember (a : Alphabet) (c : Byte) : Bool := (valOf a c).isSome

/-- "Printable" is 0x21 to 0x7E (R51, D24). -/
def isPrintable (c : Byte) : Bool := decide (0x21 ≤ c.toNat) && decide (c.toNat ≤ 0x7E)

/-- R51: 85 distinct characters, each printable. -/
def meetsSource (a : Alphabet) : Bool := decide a.toList.Nodup && a.toList.all isPrintable

/-- The seven entries the source's "HelloWorld" vector fixes (R52 (a)). -/
def sourceEntries : List (Digit × Byte) :=
  [(13, 0x64#8), (14, 0x65#8), (21, 0x6C#8), (24, 0x6F#8), (27, 0x72#8), (43, 0x48#8), (58, 0x57#8)]

/-- The text of the source's 40-character vector, group by group (R52 (c), V6). -/
def sourceText : List TextGroup :=
  [⟨0x4A#8, 0x54#8, 0x4B#8, 0x56#8, 0x53#8⟩, ⟨0x42#8, 0x25#8, 0x25#8, 0x29#8, 0x77#8⟩,
   ⟨0x4B#8, 0x30#8, 0x45#8, 0x2E#8, 0x58#8⟩, ⟨0x29#8, 0x56#8, 0x3E#8, 0x2B#8, 0x7D#8⟩,
   ⟨0x6F#8, 0x3F#8, 0x70#8, 0x4E#8, 0x6D#8⟩, ⟨0x43#8, 0x7B#8, 0x4F#8, 0x26#8, 0x34#8⟩,
   ⟨0x57#8, 0x34#8, 0x62#8, 0x21#8, 0x4E#8⟩, ⟨0x69#8, 0x7B#8, 0x4C#8, 0x68#8, 0x36#8⟩]

/-- `value(d)`, an unbounded natural number (R81). Each weight stands first in its product, so that the kernel never
unrolls one. -/
def valueOf (d : Group) : Nat :=
  85 ^ 4 * d.d0.val + 85 ^ 3 * d.d1.val + 85 ^ 2 * d.d2.val + 85 * d.d3.val + d.d4.val

/-- The predicate "group overflows" (R73). -/
def overflows (d : Group) : Bool := decide (2 ^ 32 ≤ valueOf d)

/-- The digits of a text group, none if one of its characters is a non-member (R59). -/
def digitsOf (a : Alphabet) (t : TextGroup) : Option Group :=
  match valOf a t.c0, valOf a t.c1, valOf a t.c2, valOf a t.c3, valOf a t.c4 with
  | some d0, some d1, some d2, some d3, some d4 => some ⟨d0, d1, d2, d3, d4⟩
  | _, _, _, _, _ => none

/-- R52: the seven fixed entries, `~` not a member, and the 40-character text made of members, none of its groups
overflowing. -/
def meetsVectors (a : Alphabet) : Bool :=
  sourceEntries.all (fun e => symOf a e.1 == e.2) && !isMember a 0x7E#8 &&
    sourceText.all (fun t => match digitsOf a t with | some d => !overflows d | none => false)

/-- The tables a claim may quantify over: R51 and R52. -/
def admissible (a : Alphabet) : Bool := meetsSource a && meetsVectors a

/-- PRESUMED (log 2): the published Z85 table of R53, `0`..`9`, `a`..`z`, `A`..`Z`, then 23 punctuation characters. -/
def tableDigits : List Byte := [0x30#8, 0x31#8, 0x32#8, 0x33#8, 0x34#8, 0x35#8, 0x36#8, 0x37#8, 0x38#8, 0x39#8]
def tableLower : List Byte :=
  [0x61#8, 0x62#8, 0x63#8, 0x64#8, 0x65#8, 0x66#8, 0x67#8, 0x68#8, 0x69#8, 0x6A#8, 0x6B#8, 0x6C#8, 0x6D#8,
   0x6E#8, 0x6F#8, 0x70#8, 0x71#8, 0x72#8, 0x73#8, 0x74#8, 0x75#8, 0x76#8, 0x77#8, 0x78#8, 0x79#8, 0x7A#8]
def tableUpper : List Byte :=
  [0x41#8, 0x42#8, 0x43#8, 0x44#8, 0x45#8, 0x46#8, 0x47#8, 0x48#8, 0x49#8, 0x4A#8, 0x4B#8, 0x4C#8, 0x4D#8,
   0x4E#8, 0x4F#8, 0x50#8, 0x51#8, 0x52#8, 0x53#8, 0x54#8, 0x55#8, 0x56#8, 0x57#8, 0x58#8, 0x59#8, 0x5A#8]
def tablePunctuation : List Byte :=
  [0x2E#8, 0x2D#8, 0x3A#8, 0x2B#8, 0x3D#8, 0x5E#8, 0x21#8, 0x2F#8, 0x2A#8, 0x3F#8, 0x26#8, 0x3C#8,
   0x3E#8, 0x28#8, 0x29#8, 0x5B#8, 0x5D#8, 0x7B#8, 0x7D#8, 0x40#8, 0x25#8, 0x24#8, 0x23#8]

/-- The default ALPHABET (R53, log 2). -/
def defaultAlphabet : Alphabet := ⟨⟨tableDigits ++ tableLower ++ tableUpper ++ tablePunctuation⟩, by decide⟩

/-- The parameters at their defaults (R8): the table of R53, WRAP_EXACT (log 3), unbounded frames (log 6). -/
def defaultConfig : Config := ⟨defaultAlphabet, .wrapExact, none⟩

/-- The block accepts frames up to MAX_LEN octets (R8, R130). -/
def accepts (cfg : Config) (input : Frame) : Bool :=
  match cfg.maxLen with
  | none => true
  | some m => decide (input.length ≤ m)

end Sys2Proof.Machine
end

