-- ==== Sys2Proof/Syntax.lean ====
section
/-! DEFINITION. The operations of the block, and the words the host puts on its ports. -/

namespace Sys2Proof

/-- The six operations (R12, R111), one constructor per row of the opcode table. The operands of DEC5 and SYM are
the port's 7-bit fields, so that a reserved code can be written and refused (R46, R60). -/
inductive Instr where
  /-- ENCODE of the input frame (R66). -/
  | encode (input : Frame)
  /-- DECODE of the input frame (R75). -/
  | decode (input : Frame)
  /-- ENC32 of a word (R64). -/
  | enc32 (w : Word)
  /-- DEC5 of five digit fields, most significant first (R72). -/
  | dec5 (d0 d1 d2 d3 d4 : BitVec 7)
  /-- SYM of a digit field (R63). -/
  | sym (v : BitVec 7)
  /-- VAL of an octet (R71). -/
  | val (c : Byte)
  deriving DecidableEq, Repr

/-- A frame command: the selector and the input frame (R55). -/
structure Command where
  /-- `op`: 0 = ENCODE, 1 = DECODE. -/
  op : BitVec 1
  /-- `IN`. -/
  input : Frame
  deriving DecidableEq, Repr

/-- The operand word on one of the four unit and look-up ports (R58). -/
inductive PortWord where
  /-- `enc_w[31:0]`. -/
  | encW (w : BitVec 32)
  /-- `dec_d[34:0]`, five fields of 7 bits (R47). -/
  | decD (d : BitVec 35)
  /-- `sym_v[6:0]`. -/
  | symV (v : BitVec 7)
  /-- `val_c[7:0]`. -/
  | valC (c : BitVec 8)
  deriving DecidableEq, Repr

/-- What the host can present: a command, or an operand on a port of its own; only commands have a selector (R55, R58). -/
inductive Drive where
  | command (c : Command)
  | port (p : PortWord)
  deriving DecidableEq, Repr

end Sys2Proof
end

