-- ==== Sys2Proof/Machine/State.lean ====
section
/-! DEFINITION. The state of one instance: its parameters, its handshake, and the host's side of its ports. -/

namespace Sys2Proof.Machine

/-- Why the machine stops with a fault. -/
inductive Fault where
  /-- Raised by DEC5 and DECODE on an overflowing group, only when OVERFLOW_POLICY is FAULT: the contemplated
  `OverflowError` (R73, U2). Safe: nothing is claimed of what the block does next. -/
  | overflowError
  deriving DecidableEq, Repr

/-- Why an operation is given no meaning. -/
inductive Refusal where
  /-- Raised by a dispatch arm whose operation has no meaning yet. Safe. -/
  | notModelled (mnemonic : String)
  /-- Raised by DEC5 and SYM, and by the step that reads their ports, on a digit code 85 to 127 (R60, R80, U7). Safe. -/
  | reservedDigit
  /-- Raised by ENCODE and DECODE, and by the acceptance of a command, on a frame longer than MAX_LEN (R60, R130, U10).
  Safe. -/
  | frameTooLong
  deriving DecidableEq, Repr

/-- The response to a frame command, one of three shapes (R56). -/
inductive Response where
  /-- `Ok(OUT)`. -/
  | ok (out : Frame)
  /-- `LengthError`, which carries nothing (R99). -/
  | lengthError
  /-- `InvalidCharacter(err_char, err_pos)` (R100). -/
  | invalidCharacter (errChar : Byte) (errPos : Nat)
  deriving DecidableEq, Repr

/-- The result on one of the four unit and look-up ports (R58). -/
inductive PortResult where
  /-- `enc_d[34:0]`, a digit group packed as in R47. -/
  | encD (d : BitVec 35)
  /-- `dec_w[31:0]`. -/
  | decW (w : BitVec 32)
  /-- `sym_c[7:0]`. -/
  | symC (c : BitVec 8)
  /-- `val_hit` and `val_v`: `none` is the look-up result `NONE`, where `val_hit = 0` (R58, R71). -/
  | valD (v : Option Digit)
  deriving DecidableEq, Repr

/-- The handshake (R125). -/
inductive Handshake where
  /-- `IDLE`: no operation in progress, ready for a command, no response pending. -/
  | idle
  /-- `BUSY`: the command was accepted, its response is not yet presented. -/
  | busy (c : Command)
  /-- `RESPOND`: the response is presented and not yet taken. -/
  | respond (r : Response)
  deriving DecidableEq, Repr

/-- The state of one instance. The block itself keeps nothing but `hs` (R13); `cfg` is the parameters of R8 and no
step writes it (R14, log 1); the other fields are the host's side of the ports (log 8). -/
structure State where
  /-- ALPHABET, OVERFLOW_POLICY and MAX_LEN (R8). -/
  cfg : Config
  /-- The handshake state (R125). -/
  hs : Handshake
  /-- Input `rst` (R117). -/
  rst : Bool
  /-- Input `rsp_ready` (R125). -/
  rspReady : Bool
  /-- Commands presented and not yet accepted, oldest first (R123: "neither lost nor merged"). -/
  cmds : List Command
  /-- Operands presented on the unit and look-up ports and not yet answered, oldest first (R58). -/
  probes : List PortWord
  /-- The responses delivered to the host, oldest first (R129). -/
  responses : List Response
  /-- The results the unit and look-up ports have given, oldest first (R58). -/
  portResults : List PortResult
  deriving DecidableEq, Repr

/-- Right after reset: the handshake is `IDLE`, the alphabet holds its constant contents (R24, R117), the parameters
are at their defaults (R8), and the host presents nothing (DESIGN CHOICE, log 8). -/
def State.reset : State where
  cfg := defaultConfig
  hs := .idle
  rst := false
  rspReady := false
  cmds := []
  probes := []
  responses := []
  portResults := []

end Sys2Proof.Machine
end

