-- ==== Sys2Proof/Machine/Flags.lean ====
section
/-! DEFINITION. The block has no flags or condition codes (R17); the only condition a caller sees is the status of the
response (R57). -/

namespace Sys2Proof.Machine

/-- The 2-bit status code of a response; code 3 is reserved and never produced (R57). -/
def statusOf : Response → BitVec 2
  | .ok _ => 0#2
  | .lengthError => 1#2
  | .invalidCharacter _ _ => 2#2

end Sys2Proof.Machine
end

