-- ==== Sys2Proof/WellFormed.lean ====
section
/-! DEFINITION. Which operations are legal operands of the block (R46, R60). -/

namespace Sys2Proof

/-- A 7-bit field holds a digit: codes 85 to 127 are reserved (R46, R60). -/
def isDigitCode (v : BitVec 7) : Bool := decide (v.toNat < 85)

/-- An operation is well formed when every digit field holds a digit. ENCODE and DECODE are well formed whatever the
frame: a wrong length and a non-member are "legal command"s (R60); MAX_LEN is a parameter, checked by the machine. -/
def Instr.wellFormed : Instr → Bool
  | .encode _ => true
  | .decode _ => true
  | .enc32 _ => true
  | .dec5 d0 d1 d2 d3 d4 =>
    isDigitCode d0 && isDigitCode d1 && isDigitCode d2 && isDigitCode d3 && isDigitCode d4
  | .sym v => isDigitCode v
  | .val _ => true

end Sys2Proof
end

