-- ==== Sys2Proof/Decode.lean ====
section
/-! DEFINITION. From the words on the ports to an operation, and back (R47, R55, R58, opcode_table.json). -/

namespace Sys2Proof

/-- Why a port word stands for no operation (R60). -/
inductive Reject where
  /-- A field of `dec_d` holds 85 to 127 (R80). -/
  | dec5ReservedDigit
  /-- `sym_v` holds 85 to 127 (R60). -/
  | symReservedDigit
  deriving DecidableEq, Repr

/-- The fields of `dec_d`: d[0] in 34:28 down to d[4] in 6:0 (R47). -/
def unpackFields (d : BitVec 35) : Instr :=
  .dec5 (d.extractLsb' 28 7) (d.extractLsb' 21 7) (d.extractLsb' 14 7) (d.extractLsb' 7 7) (d.extractLsb' 0 7)

/-- The selector: 0 = ENCODE, 1 = DECODE; "no other value exists" (R55). -/
def decodeCommand (c : Command) : Instr :=
  if c.op = 0#1 then .encode c.input else .decode c.input

/-- The operation a port word stands for; a reserved digit code is rejected by name (R58, R60). -/
def decodePort : PortWord → Except Reject Instr
  | .encW w => .ok (.enc32 w)
  | .decD d => if (unpackFields d).wellFormed then .ok (unpackFields d) else .error .dec5ReservedDigit
  | .symV v => if isDigitCode v then .ok (.sym v) else .error .symReservedDigit
  | .valC c => .ok (.val c)

/-- The decoder: total on everything the host can present. -/
def decode : Drive → Except Reject Instr
  | .command c => .ok (decodeCommand c)
  | .port p => decodePort p

/-- Five 7-bit fields as one 35-bit group word, the first in the top field (R47). -/
def packFields (d0 d1 d2 d3 d4 : BitVec 7) : BitVec 35 := d0 ++ d1 ++ d2 ++ d3 ++ d4

/-- The encoder: what the host presents to issue an operation. -/
def encode : Instr → Drive
  | .encode input => .command ⟨0#1, input⟩
  | .decode input => .command ⟨1#1, input⟩
  | .enc32 w => .port (.encW w)
  | .dec5 d0 d1 d2 d3 d4 => .port (.decD (packFields d0 d1 d2 d3 d4))
  | .sym v => .port (.symV v)
  | .val c => .port (.valC c)

/-- The port on which a word of the opcode table stands. The table's rows have no selector among the ports, so a word
of 8 bits is read on the first port, in the table's order, that can hold it: the selector (0, 1), then SYM (a digit),
then VAL (log 10). A word with a bit above its row's is on no port. -/
def tableDrive (nbits w : Nat) : Option Drive :=
  match (nbits + 7) / 8 with
  | 1 =>
    if w < 2 then some (.command ⟨BitVec.ofNat 1 w, []⟩)
    else if w < 85 then some (.port (.symV (BitVec.ofNat 7 w)))
    else if w < 2 ^ 8 then some (.port (.valC (BitVec.ofNat 8 w)))
    else none
  | 4 => if w < 2 ^ 32 then some (.port (.encW (BitVec.ofNat 32 w))) else none
  | 5 => if w < 2 ^ 35 then some (.port (.decD (BitVec.ofNat 35 w))) else none
  | _ => none

/-- The operation read from the bits of a row of spec/opcode_table.json; the input frame of a command, which the table
gives no bits, is empty. -/
def decodeTableWord (nbits w : Nat) : Option Instr :=
  match tableDrive nbits w with
  | none => none
  | some d =>
    match decode d with
    | .ok i => some i
    | .error _ => none

end Sys2Proof
end

