-- ==== Sys2Proof/Machine/Operands.lean ====
section
/-! DEFINITION. How operands and results are put together (R10, R30, R31, R45, R47, R59). -/

namespace Sys2Proof.Machine

/-- `MemRead(IN, i, n)`: the octets `IN[i..i+n]` in index order (R10). -/
def memRead (f : Frame) (i n : Nat) : Frame := (f.drop i).take n

/-- `be32(b)`: the octets as a word, most significant first (R10, R31). -/
def be32 (b : Block) : Word :=
  BitVec.ofNat 32 (2 ^ 24 * b.b0.toNat + 2 ^ 16 * b.b1.toNat + 2 ^ 8 * b.b2.toNat + b.b3.toNat)

/-- `bytes_be(w)`: `[w[31:24], w[23:16], w[15:8], w[7:0]]` (R10, R45). -/
def bytesBe (w : Word) : Block :=
  ⟨w.extractLsb' 24 8, w.extractLsb' 16 8, w.extractLsb' 8 8, w.extractLsb' 0 8⟩

def blockFrame (b : Block) : Frame := [b.b0, b.b1, b.b2, b.b3]
def textFrame (t : TextGroup) : Frame := [t.c0, t.c1, t.c2, t.c3, t.c4]

/-- The blocks of a binary frame, block `g` being its octets `4g` to `4g+3` (R30). Used only after the length check,
so no octet is left over (R59). -/
def blocksOf : Frame → List Block
  | b0 :: b1 :: b2 :: b3 :: rest => ⟨b0, b1, b2, b3⟩ :: blocksOf rest
  | _ => []

/-- The groups of a text frame, group `g` being its characters `5g` to `5g+4` (R30). -/
def groupsOf : Frame → List TextGroup
  | c0 :: c1 :: c2 :: c3 :: c4 :: rest => ⟨c0, c1, c2, c3, c4⟩ :: groupsOf rest
  | _ => []

/-- A digit on a port: a 7-bit field (R46). -/
def digitField (v : Digit) : BitVec 7 := BitVec.ofNat 7 v.val

/-- The digit a 7-bit field holds; none for a reserved code (R46, R60). -/
def fieldDigit (v : BitVec 7) : Option Digit := if h : v.toNat < 85 then some ⟨v.toNat, h⟩ else none

/-- A group as `enc_d` or `dec_d` carries it, d[0] in bits 34:28 (R47). -/
def packGroup (d : Group) : BitVec 35 :=
  packFields (digitField d.d0) (digitField d.d1) (digitField d.d2) (digitField d.d3) (digitField d.d4)

/-- The group five port fields hold; none if one of them is a reserved code (R80). -/
def fieldsGroup (d0 d1 d2 d3 d4 : BitVec 7) : Option Group :=
  match fieldDigit d0, fieldDigit d1, fieldDigit d2, fieldDigit d3, fieldDigit d4 with
  | some v0, some v1, some v2, some v3, some v4 => some ⟨v0, v1, v2, v3, v4⟩
  | _, _, _, _, _ => none

/-- A text group as one bit vector, `c[0]` in bits 39:32 down to `c[4]` in bits 7:0 (R49). -/
def packText (t : TextGroup) : BitVec 40 := t.c0 ++ t.c1 ++ t.c2 ++ t.c3 ++ t.c4

/-- The text group a 40-bit vector holds (R49). -/
def unpackText (v : BitVec 40) : TextGroup :=
  ⟨v.extractLsb' 32 8, v.extractLsb' 24 8, v.extractLsb' 16 8, v.extractLsb' 8 8, v.extractLsb' 0 8⟩

/-- A digit as a word, for the decoder's adds (R72). -/
def digitWord (v : Digit) : Word := BitVec.ofNat 32 v.val

/-- A frame is a text frame: a multiple of 5 characters, each a member (R29). -/
def isTextFrame (a : Alphabet) (f : Frame) : Bool := f.length % 5 == 0 && f.all (isMember a)

/-- A frame is a binary frame: a multiple of 4 octets (R28). -/
def isBinaryFrame (f : Frame) : Bool := f.length % 4 == 0

end Sys2Proof.Machine
end

