-- ==== Sys2Proof/Machine/Ops.lean ====
section
/-! DEFINITION. The shared operations on State: raising an error, presenting and delivering a response, answering on a
port, accepting a command, reset (R11, R56, R98 to R107, R117, R125). -/

namespace Sys2Proof.Machine

/-- What ends an operation before its result (R11, R98); `overflow` only when OVERFLOW_POLICY is FAULT (R73). -/
inductive Raise where
  | lengthError
  | invalidCharacter (c : Byte) (p : Nat)
  | overflow
  deriving DecidableEq, Repr

/-- `BUSY` to `RESPOND`: the block raises `rsp_valid` with the response (R125). -/
def present (r : Response) (s : State) : State := { s with hs := .respond r }

/-- ERROR ENTRY (R104): the operation ends, the response carries the status and, for an invalid character, the
character and its index; no output frame is delivered, no state is saved, control goes nowhere. -/
def raiseError (e : Raise) (s : State) : Host.Outcome State Fault Refusal :=
  match e with
  | .lengthError => .next (present .lengthError s)
  | .invalidCharacter c p => .next (present (.invalidCharacter c p) s)
  | .overflow => .fault .overflowError

/-- The end of a frame operation: the complete output frame, or the error (R37, R56). -/
def answer (r : Except Raise Frame) (s : State) : Host.Outcome State Fault Refusal :=
  match r with
  | .ok out => .next (present (.ok out) s)
  | .error e => raiseError e s

/-- AFTER AN ERROR as after a success there is nothing to return from or restore (R106): the response is delivered and
the block is back in `IDLE` (R125). -/
def deliver (r : Response) (s : State) : State := { s with hs := .idle, responses := s.responses ++ [r] }

/-- A unit or look-up port gives its result, with no handshake (R125). -/
def reply (r : PortResult) (s : State) : State := { s with portResults := s.portResults ++ [r] }

/-- `IDLE` to `BUSY`: the command is taken from the host (R125). -/
def accept (c : Command) (rest : List Command) (s : State) : State := { s with hs := .busy c, cmds := rest }

/-- `rst`: the handshake is put in `IDLE` "and does nothing else"; an operation in progress is abandoned with no
response (R117, R119). -/
def applyReset (s : State) : State := { s with hs := .idle }

end Sys2Proof.Machine
end

