-- ==== Sys2Proof/Machine/Units.lean ====
section
/-! DEFINITION. The two conversion units: `base85_encoder` (ENC32) and `base85_decoder` (DEC5) (R64, R72, R73, R80). -/

namespace Sys2Proof.Machine

/-- `q div 85` and `q mod 85` (R64). -/
def quotient (q : Word) : Word := q / 85#32
def remainder (q : Word) : Digit := Fin.ofNat 85 q.toNat

/-- ENC32: five divisions by 85, the remainders placed from `d[4]` up to `d[0]` (R64). -/
def enc32 (w : Word) : Group :=
  let q4 := quotient w
  let q3 := quotient q4
  let q2 := quotient q3
  let q1 := quotient q2
  ⟨remainder q1, remainder q2, remainder q3, remainder q4, remainder w⟩

/-- One of the first four folds: `acc <- (acc +32 d[i]) *32 85` (R72). -/
def foldDigit (acc : Word) (v : Digit) : Word := (acc + digitWord v) * 85#32

/-- The accumulator before the last add, starting at 0 for every group (R22, R72; log 14). -/
def foldFour (d : Group) : Word := foldDigit (foldDigit (foldDigit (foldDigit 0#32 d.d0) d.d1) d.d2) d.d3

/-- DEC5 with all arithmetic modulo `2^32`; no multiply after the last digit (R72). -/
def dec5 (d : Group) : Word := foldFour d + digitWord d.d4

/-- DEC5 under OVERFLOW_POLICY (R73): an overflowing group gives the exact wrapped word, a free word, or a fault. -/
def dec5Under (p : OverflowPolicy) (d : Group) : Except Raise Word :=
  if overflows d then
    match p with
    | .wrapExact => .ok (dec5 d)
    | .anyValue => .ok (Config.overflowWord d)
    | .fault => .error .overflow
  else .ok (dec5 d)

/-- ENC32 on its port: total on all words (R64). -/
def execEnc32 (w : Word) (s : State) : Host.Outcome State Fault Refusal :=
  .next (reply (.encD (packGroup (enc32 w))) s)

/-- DEC5 on its port; a field above 84 is refused (R72, R80). -/
def execDec5 (d0 d1 d2 d3 d4 : BitVec 7) (s : State) : Host.Outcome State Fault Refusal :=
  match fieldsGroup d0 d1 d2 d3 d4 with
  | none => .refused .reservedDigit
  | some d =>
    match dec5Under s.cfg.overflow d with
    | .ok w => .next (reply (.decW w) s)
    | .error e => raiseError e s

end Sys2Proof.Machine
end

