-- ==== Sys2Proof/Machine/Frames.lean ====
section
/-! DEFINITION. The sequencer's two frame operations, each as one atomic function: ENCODE and DECODE (R65 to R70, R74 to
R79, R129). -/

namespace Sys2Proof.Machine

/-- ENCBLK: the big-endian read, ENC32, and SYM on each digit (R65). -/
def encBlk (a : Alphabet) (b : Block) : TextGroup :=
  let d := enc32 (be32 b)
  ⟨symOf a d.d0, symOf a d.d1, symOf a d.d2, symOf a d.d3, symOf a d.d4⟩

/-- ENCODE: the length check, then every block in order, concatenated (R66, R68). -/
def encodeFrame (cfg : Config) (input : Frame) : Except Raise Frame :=
  if input.length % 4 = 0 then .ok ((blocksOf input).flatMap (fun b => textFrame (encBlk cfg.alphabet b)))
  else .error .lengthError

/-- VAL of a character at frame index `p`; a non-member is an error (R74). -/
def digitAt (a : Alphabet) (c : Byte) (p : Nat) : Except Raise Digit :=
  match valOf a c with
  | some v => .ok v
  | none => .error (.invalidCharacter c p)

/-- The characters of a group tested left to right, so that the lowest-index non-member is reported (R74). -/
def groupDigits (a : Alphabet) (t : TextGroup) (base : Nat) : Except Raise Group := do
  let d0 ← digitAt a t.c0 base
  let d1 ← digitAt a t.c1 (base + 1)
  let d2 ← digitAt a t.c2 (base + 2)
  let d3 ← digitAt a t.c3 (base + 3)
  let d4 ← digitAt a t.c4 (base + 4)
  return ⟨d0, d1, d2, d3, d4⟩

/-- DECGRP: VAL on each character, DEC5, and the big-endian split; `base` is the frame index of the first character
(R74). -/
def decGrp (cfg : Config) (t : TextGroup) (base : Nat) : Except Raise Block := do
  let d ← groupDigits cfg.alphabet t base
  let w ← dec5Under cfg.overflow d
  return bytesBe w

/-- The group loop of DECODE: the first error ends it and discards what was written (R75, R78). -/
def decodeGroups (cfg : Config) : List TextGroup → Nat → Except Raise Frame
  | [], _ => .ok []
  | t :: ts, base => do
    let b ← decGrp cfg t base
    let rest ← decodeGroups cfg ts (base + 5)
    return blockFrame b ++ rest

/-- DECODE: the length check first, then every group in order (R75, R103). -/
def decodeFrame (cfg : Config) (input : Frame) : Except Raise Frame :=
  if input.length % 5 = 0 then decodeGroups cfg (groupsOf input) 0 else .error .lengthError

/-- ENCODE: from the command to its response in one step (R66, R129); a frame above MAX_LEN is refused (R130). -/
def execEncode (input : Frame) (s : State) : Host.Outcome State Fault Refusal :=
  if accepts s.cfg input then answer (encodeFrame s.cfg input) s else .refused .frameTooLong

/-- DECODE: from the command to its response in one step (R75, R129); a frame above MAX_LEN is refused (R130). -/
def execDecode (input : Frame) (s : State) : Host.Outcome State Fault Refusal :=
  if accepts s.cfg input then answer (decodeFrame s.cfg input) s else .refused .frameTooLong

/-- What ends the operation of a command: a function of the command and the parameters alone (R129). -/
def resultOf (cfg : Config) (c : Command) : Except Raise Frame :=
  if c.op = 0#1 then encodeFrame cfg c.input else decodeFrame cfg c.input

/-- The response to a command; none only when OVERFLOW_POLICY is FAULT and a group overflows (R56, R73). -/
def responseTo (cfg : Config) (c : Command) : Option Response :=
  match resultOf cfg c with
  | .ok out => some (.ok out)
  | .error .lengthError => some .lengthError
  | .error (.invalidCharacter ch p) => some (.invalidCharacter ch p)
  | .error .overflow => none

end Sys2Proof.Machine
end

