-- ==== Sys2Proof/Machine/Lookup.lean ====
section
/-! DEFINITION. The two alphabet look-up ports: SYM and VAL (R63, R71). -/

namespace Sys2Proof.Machine

/-- SYM on its port; a code above 84 is refused (R60, R63). -/
def execSym (v : BitVec 7) (s : State) : Host.Outcome State Fault Refusal :=
  match fieldDigit v with
  | none => .refused .reservedDigit
  | some d => .next (reply (.symC (symOf s.cfg.alphabet d)) s)

/-- VAL on its port: total on all octets; NONE is a result, not an error (R71). -/
def execVal (c : Byte) (s : State) : Host.Outcome State Fault Refusal :=
  .next (reply (.valD (valOf s.cfg.alphabet c)) s)

end Sys2Proof.Machine
end

