-- ==== Sys2Proof/Machine/Dispatch.lean ====
section
/-! DEFINITION. One arm per operation. -/

namespace Sys2Proof.Machine

def exec (i : Instr) (s : State) : Host.Outcome State Fault Refusal :=
  match i with
  | .encode input => Sys2Proof.Machine.execEncode input s
  | .decode input => Sys2Proof.Machine.execDecode input s
  | .enc32 w => Sys2Proof.Machine.execEnc32 w s
  | .dec5 d0 d1 d2 d3 d4 => Sys2Proof.Machine.execDec5 d0 d1 d2 d3 d4 s
  | .sym v => Sys2Proof.Machine.execSym v s
  | .val c => Sys2Proof.Machine.execVal c s

end Sys2Proof.Machine
end

