-- ==== Sys2Proof/Machine/Handshake.lean ====
section
/-! DEFINITION. What one step is made of: the function ports answer beside the handshake, and the handshake makes its move or
is reset (R58, R117, R125, R128). -/

namespace Sys2Proof.Machine

/-- The result of the operand `p` on its port; none if `p` is no operation or its operation stops (R58, R60). -/
def portAnswer (s : State) (p : PortWord) : Option PortResult :=
  match decodePort p with
  | .error _ => none
  | .ok i =>
    match exec i { s with portResults := [] } with
    | .next t => t.portResults.head?
    | .fault _ => none
    | .refused _ => none

/-- The ports: each is combinational, "the result follows the operand with no handshake" (R125). Every operand that stands
on a port is answered; one without an answer is left standing (log 11). -/
def servePorts (s : State) : State :=
  { s with
    probes := s.probes.filter (fun p => (portAnswer s p).isNone)
    portResults := s.portResults ++ s.probes.filterMap (portAnswer s) }

/-- Some operand that stands on a port has an answer. -/
def portsAnswer (s : State) : Bool := s.probes.any (fun p => (portAnswer s p).isSome)

/-- The stop of an operand without an answer (R60, R73). -/
def stepProbe (p : PortWord) (s : State) : Host.Outcome State Fault Refusal :=
  match decodePort p with
  | .ok i => exec i s
  | .error _ => .refused .reservedDigit

/-- `IDLE`: accept the oldest command presented; with none presented the block does nothing (R118, R125). A frame above
MAX_LEN is refused, not accepted (R130). -/
def stepIdle (s : State) : Host.Outcome State Fault Refusal :=
  match s.cmds with
  | [] => .next s
  | c :: rest => if accepts s.cfg c.input then .next (accept c rest s) else .refused .frameTooLong

/-- `RESPOND`: deliver the response when the host takes it, else wait (R125, R128). -/
def stepRespond (r : Response) (s : State) : Host.Outcome State Fault Refusal :=
  .next (if s.rspReady then deliver r s else s)

/-- The handshake's move: `IDLE` accepts, `BUSY` runs the accepted operation, `RESPOND` delivers (R125). -/
def stepHandshake (s : State) : Host.Outcome State Fault Refusal :=
  match s.hs with
  | .idle => stepIdle s
  | .busy c => exec (decodeCommand c) s
  | .respond r => stepRespond r s

/-- The handshake under `rst`, which puts it in `IDLE` (R117), or its own move. While `rst` is held it wins over a command
presented, which is neither accepted nor lost (DESIGN CHOICE, log 21). -/
def stepBlock (s : State) : Host.Outcome State Fault Refusal :=
  if s.rst then .next (applyReset s) else stepHandshake s

/-- The handshake does not wait for the host: `rst` holds, or `cmd_valid` with `cmd_ready`, or the block is `BUSY`, or
`rsp_valid` with `rsp_ready` (R125). -/
def handshakeMoves (s : State) : Bool :=
  s.rst || match s.hs with
    | .idle => !s.cmds.isEmpty
    | .busy _ => true
    | .respond _ => s.rspReady

/-- The ports answer and, beside them, the handshake moves; neither holds the other up (R125, R128). A stop of the one
waits until the other has nothing to do (DESIGN CHOICE, log 11). -/
def advance (s : State) : Host.Outcome State Fault Refusal :=
  if handshakeMoves s then
    match stepBlock (servePorts s) with
    | .next t => .next t
    | .fault r => if portsAnswer s then .next (servePorts s) else .fault r
    | .refused r => if portsAnswer s then .next (servePorts s) else .refused r
  else if portsAnswer s then .next (servePorts s)
  else
    match s.probes with
    | [] => .next s
    | p :: _ => stepProbe p s

end Sys2Proof.Machine
end

