-- ==== Sys2Proof/Machine/Step.lean ====
section
/-! DEFINITION. One step of one instance, and how a word of the opcode table is placed before it (R117, R125, R129). -/

namespace Sys2Proof.Machine

/-- One step: the function ports answer beside the handshake, which moves or is reset. -/
def step (s : State) : Host.Outcome State Fault Refusal := advance s

/-- `s` with an operation of the opcode table where the very next step runs it: `rst` released, and the command in
`BUSY` (accepted) with no port operand beside it, or the operand alone on its port (log 9). -/
def State.withFetchWord (s : State) (nbits w : Nat) : State :=
  match tableDrive nbits w with
  | some (.command c) => { s with rst := false, probes := [], hs := .busy c }
  | some (.port p) => { s with rst := false, probes := [p] }
  | none => s

end Sys2Proof.Machine
end

