-- ==== Sys2Proof/Machine/HostMoves.lean ====
section
/-! DEFINITION. What the host can do to the block between steps, and a run of host moves and steps (R121, R125, R134). -/

namespace Sys2Proof.Machine

/-- A move of the host. There is none that changes the frame of an accepted command (R121, U9; log 17). -/
inductive HostMove where
  /-- `cmd_valid` with a command; a command presented while another waits stands behind it. -/
  | presentCommand (c : Command)
  /-- An operand on a unit or look-up port. -/
  | presentOperand (p : PortWord)
  /-- `rsp_ready`. -/
  | setRspReady (b : Bool)
  /-- `rst`. -/
  | setRst (b : Bool)
  deriving DecidableEq, Repr

/-- A move changes an input and nothing else. The block sees `rst` as a level at its next step (DESIGN CHOICE, log 22). -/
def applyMove : HostMove → State → State
  | .presentCommand c, s => { s with cmds := s.cmds ++ [c] }
  | .presentOperand p, s => { s with probes := s.probes ++ [p] }
  | .setRspReady b, s => { s with rspReady := b }
  | .setRst b, s => { s with rst := b }

/-- What happens next: a move of the host, or a step of the block. -/
inductive Event where
  | host (m : HostMove)
  | tick
  deriving DecidableEq, Repr

/-- A run of events, stopping at the first fault or refusal. -/
def runEvents : List Event → State → Host.Outcome State Fault Refusal
  | [], s => .next s
  | .host m :: es, s => runEvents es (applyMove m s)
  | .tick :: es, s =>
    match step s with
    | .next t => runEvents es t
    | .fault r => .fault r
    | .refused r => .refused r

/-- The commands the host presents in a run, in order. -/
def presentedCommands : List Event → List Command
  | [] => []
  | .host (.presentCommand c) :: es => c :: presentedCommands es
  | .host (.presentOperand _) :: es => presentedCommands es
  | .host (.setRspReady _) :: es => presentedCommands es
  | .host (.setRst _) :: es => presentedCommands es
  | .tick :: es => presentedCommands es

/-- Whether the host asserts `rst` in a run. -/
def assertsRst : List Event → Bool
  | [] => false
  | .host (.setRst b) :: es => b || assertsRst es
  | .host (.presentCommand _) :: es => assertsRst es
  | .host (.presentOperand _) :: es => assertsRst es
  | .host (.setRspReady _) :: es => assertsRst es
  | .tick :: es => assertsRst es

end Sys2Proof.Machine
end

