-- ==== Sys2Proof/Machine/Ports.lean ====
section
/-! DEFINITION. The output signals of the block as functions of its state, on ports with fixed fields (R56, R57, R58, R125). -/

namespace Sys2Proof.Machine

/-- `cmd_ready`: the block is `IDLE` and can accept a command. It shows so while `rst` is held too, although no command is
accepted then (DESIGN CHOICE, log 21). -/
def cmdReady (s : State) : Bool := s.hs == .idle

/-- `cmd_valid`: the host presents a command. -/
def cmdValid (s : State) : Bool := !s.cmds.isEmpty

/-- The fields of the response port. -/
structure ResponsePins where
  status : BitVec 2
  out : Frame
  outLen : Nat
  errChar : Byte
  errPos : Nat
  deriving DecidableEq, Repr

/-- The response port, valid (`rsp_valid`) only in `RESPOND`; elsewhere, and after reset, there is nothing a caller may
read (R24, R122). A field the response's shape does not carry is a free value (R56, U11; log 13). -/
def responsePins (s : State) : Option ResponsePins :=
  match s.hs with
  | .idle => none
  | .busy _ => none
  | .respond r =>
    match r with
    | .ok out =>
      some ⟨statusOf r, out, out.length, Config.freeErrChar s.responses.length, Config.freeErrPos s.responses.length⟩
    | .lengthError =>
      some ⟨statusOf r, [], 0, Config.freeErrChar s.responses.length, Config.freeErrPos s.responses.length⟩
    | .invalidCharacter c p => some ⟨statusOf r, [], 0, c, p⟩

/-- `rsp_valid`: the block presents a response. -/
def rspValid (s : State) : Bool := (responsePins s).isSome

/-- The fields of VAL's result port. -/
structure ValPins where
  hit : BitVec 1
  v : BitVec 7
  deriving DecidableEq, Repr

/-- The look-up result on the port; `val_v` is a free value when `val_hit = 0` (R58; log 13). `n` counts the results
the host has read before. -/
def valPins (n : Nat) : Option Digit → ValPins
  | some v => ⟨1#1, digitField v⟩
  | none => ⟨0#1, Config.freeValV n⟩

end Sys2Proof.Machine
end

