-- ==== Sys2Proof/Machine/Sequencer.lean ====
section
/-! DEFINITION. The inside of one frame operation: its phases and its group loop, one group at a time, and the other
strategy of validation (R16, R21, R22, R66, R75, R77, R133). This is a finer view of `encodeFrame` and `decodeFrame`; none of
it is architectural state (R21), so none of it stands in State (log 16). -/

namespace Sys2Proof.Machine

/-- Progress of an operation (R21, R133). -/
inductive Phase where
  | notValidated
  | inProgress
  | complete
  | failed
  deriving DecidableEq, Repr

/-- The working values of one frame operation: `phase`, the group index `g`, the output frame so far, and the error
that ended it, if one did (R21). -/
structure Work where
  phase : Phase
  g : Nat
  out : Frame
  raised : Option Raise
  deriving DecidableEq, Repr

/-- Every operation starts with `phase <- NOT_VALIDATED` and `g <- 0`, nothing inherited (R22). -/
def startWork : Work := ⟨.notValidated, 0, [], none⟩

/-- The block size of the input side: 4 octets for ENCODE, 5 characters for DECODE (R34). -/
def blockSize (c : Command) : Nat := if c.op = 0#1 then 4 else 5

/-- `n`, the number of blocks of the input frame (R59). -/
def groupCount (c : Command) : Nat := c.input.length / blockSize c

/-- What group `g` contributes: ENCBLK of `IN[4g..4g+4]`, or DECGRP of `IN[5g..5g+5]` with base `5g` (R66, R75). -/
def groupOutput (cfg : Config) (c : Command) (g : Nat) : Except Raise Frame :=
  if c.op = 0#1 then
    .ok ((blocksOf (memRead c.input (4 * g) 4)).flatMap (fun b => textFrame (encBlk cfg.alphabet b)))
  else decodeGroups cfg (groupsOf (memRead c.input (5 * g) 5)) (5 * g)

/-- One move inside the operation: the length check, one group, or the end (R66, R75, R133). -/
def micro (cfg : Config) (c : Command) (w : Work) : Work :=
  match w.phase with
  | .notValidated =>
    if c.input.length % blockSize c = 0 then { w with phase := .inProgress }
    else { w with phase := .failed, raised := some .lengthError }
  | .inProgress =>
    if w.g < groupCount c then
      match groupOutput cfg c w.g with
      | .ok o => { w with g := w.g + 1, out := w.out ++ o }
      | .error e => { w with phase := .failed, out := [], raised := some e }
    else { w with phase := .complete }
  | .complete => w
  | .failed => w

/-- `k` moves. -/
def runMicro (cfg : Config) (c : Command) : Nat → Work → Work
  | 0, w => w
  | k + 1, w => runMicro cfg c k (micro cfg c w)

/-- What the operation answers, once its phase is `COMPLETE` or `FAILED`. -/
def workResult (w : Work) : Option (Except Raise Frame) :=
  match w.phase with
  | .notValidated => none
  | .inProgress => none
  | .complete => some (.ok w.out)
  | .failed => w.raised.map .error

/-- The lowest index, counted from `p`, of a non-member (R77). -/
def firstNonMember (a : Alphabet) : Frame → Nat → Option (Byte × Nat)
  | [], _ => none
  | c :: rest, p => if isMember a c then firstNonMember a rest (p + 1) else some (c, p)

/-- DECODE with the whole frame validated before the first DEC5, the other strategy the source allows (R77). -/
def decodeUpfront (cfg : Config) (input : Frame) : Except Raise Frame :=
  if input.length % 5 = 0 then
    match firstNonMember cfg.alphabet input 0 with
    | some (c, p) => .error (.invalidCharacter c p)
    | none => decodeGroups cfg (groupsOf input) 0
  else .error .lengthError

end Sys2Proof.Machine
end

