-- ==== Sys2Proof/Machine/System.lean ====
section
/-! DEFINITION. Several instances side by side (R25, R114): the state of `k` instances is the `k`-tuple of their states. -/

namespace Sys2Proof.Machine

abbrev System := List State

/-- Instance `k` makes one step; with no such instance nothing happens. Where its step stops, the step of the system is that
stop, and every other instance can still be stepped from `sys` (DESIGN CHOICE, log 15). -/
def stepAt (k : Nat) (sys : System) : Host.Outcome System Fault Refusal :=
  match sys[k]? with
  | none => .next sys
  | some s =>
    match step s with
    | .next t => .next (sys.set k t)
    | .fault r => .fault r
    | .refused r => .refused r

/-- The one thing instances share: the constant alphabet (R25). -/
def sharesAlphabet (sys : System) (a : Alphabet) : Prop := ∀ s ∈ sys, s.cfg.alphabet = a

end Sys2Proof.Machine
end

