-- ==== Sys2Proof/Safety.lean ====
section
/-! DEFINITION. The terms claims are stated in: what a frame holds, which states are legal, and which run on. -/

namespace Sys2Proof.Machine

/-- The octets of block `g` of a binary frame as a natural number, most significant first (R31). -/
def wordAt (f : Frame) (g : Nat) : Nat := (memRead f (4 * g) 4).foldl (fun acc b => acc * 256 + b.toNat) 0

/-- Group `g` of a text frame holds the digits `d` (R30, R59). -/
def holdsGroup (a : Alphabet) (f : Frame) (g : Nat) (d : Group) : Prop :=
  (memRead f (5 * g) 5).map (valOf a) = [some d.d0, some d.d1, some d.d2, some d.d3, some d.d4]

/-- Dictionary order of groups, first digit first (R81). -/
def dictBefore (d e : Group) : Prop :=
  d.d0 < e.d0 ∨ (d.d0 = e.d0 ∧ (d.d1 < e.d1 ∨ (d.d1 = e.d1 ∧ (d.d2 < e.d2 ∨ (d.d2 = e.d2 ∧
    (d.d3 < e.d3 ∨ (d.d3 = e.d3 ∧ d.d4 < e.d4)))))))

/-- A response the block can present: `OUT` is a frame of one of the two kinds, and an octet reported as invalid is a
non-member (R28, R29, R100). -/
def responseLegal (a : Alphabet) : Response → Bool
  | .ok out => isTextFrame a out || isBinaryFrame out
  | .lengthError => true
  | .invalidCharacter c _ => !isMember a c

/-- A result a port can give: no reserved digit code, no overflowing group from ENC32, only members from SYM (R46, R83). -/
def portResultLegal (a : Alphabet) : PortResult → Bool
  | .encD d =>
    match fieldsGroup (d.extractLsb' 28 7) (d.extractLsb' 21 7) (d.extractLsb' 14 7) (d.extractLsb' 7 7)
        (d.extractLsb' 0 7) with
    | some g => !overflows g
    | none => false
  | .decW _ => true
  | .symC c => isMember a c
  | .valD _ => true

/-- The handshake holds an accepted command within MAX_LEN, or a legal response. -/
def handshakeLegal (cfg : Config) : Handshake → Bool
  | .idle => true
  | .busy c => accepts cfg c.input
  | .respond r => responseLegal cfg.alphabet r

/-- THE INVARIANT: an alphabet as the source requires it (R51), and nothing illegal in the handshake or handed to the
host. -/
structure Inv (s : State) : Prop where
  alphabet : meetsSource s.cfg.alphabet = true
  handshake : handshakeLegal s.cfg s.hs = true
  responses : s.responses.all (responseLegal s.cfg.alphabet) = true
  portResults : s.portResults.all (portResultLegal s.cfg.alphabet) = true

/-- A SAFE state: nothing in it, presented or in progress, is a command or operand the model gives no meaning (R60), and
OVERFLOW_POLICY is not FAULT. -/
structure Safe (s : State) : Prop where
  policy : s.cfg.overflow ≠ .fault
  accepted : ∀ c, s.hs = .busy c → accepts s.cfg c.input = true
  commands : ∀ c ∈ s.cmds, accepts s.cfg c.input = true
  operands : ∀ p ∈ s.probes, ∃ i, decodePort p = .ok i

/-- The rank of a phase; no phase is left backwards (R133). -/
def phaseRank : Phase → Nat
  | .notValidated => 0
  | .inProgress => 1
  | .complete => 2
  | .failed => 2

end Sys2Proof.Machine
end

