-- ==== Sys2Proof/Certificates/Slice0/Obligations.lean ====
section
/-! DEFINITION. The statements for the provers. -/

open Sys2Proof Sys2Proof.Machine

/-- Words written out from the port formats decode to the operations they stand for. The selector 0 is ENCODE and 1 is
DECODE of the frame beside it; the words of P4 (0xDEADBEEF on the ENC32 port, 0x4760716BB on the DEC5 port), digit
code 43 on SYM and octet 0x48 on VAL decode to their operations; a first DEC5 field of 85 and the SYM code 85 are
rejected. [30_encoding.md R47 (bit fields); 30_encoding.md R55 (selector); 30_encoding.md R58 (ports);
95_test_vectors.md P4; opcode_table.json] -/
def Obligations.PortWordsAreReadAsTheFormatsSay : Prop :=
  (∀ f : Frame, decode (.command ⟨0#1, f⟩) = .ok (.encode f)) ∧
  (∀ f : Frame, decode (.command ⟨1#1, f⟩) = .ok (.decode f)) ∧
  decode (.port (.encW 0xDEADBEEF#32)) = .ok (.enc32 0xDEADBEEF#32) ∧
  decode (.port (.decD 0x4760716BB#35)) = .ok (.dec5 71#7 48#7 28#7 45#7 59#7) ∧
  decode (.port (.symV 43#7)) = .ok (.sym 43#7) ∧
  decode (.port (.valC 0x48#8)) = .ok (.val 0x48#8) ∧
  decode (.port (.decD 0x550000000#35)) = .error .dec5ReservedDigit ∧
  decode (.port (.symV 85#7)) = .error .symReservedDigit

/-- Decoding the encoding of any well-formed operation gives it back. For every well-formed operation, with every
operand at every value its format admits (every frame, word, octet and digit field 0 to 84), decode of encode is the
operation. [30_encoding.md R47; 30_encoding.md R55; 30_encoding.md R58] -/
def Obligations.DecodeUndoesEncode : Prop :=
  ∀ i : Instr, i.wellFormed = true → decode (encode i) = .ok i

/-- What the host presents has at most one meaning, and it is well formed. If what the host presents decodes to an
operation, that operation is well formed and its encoding is exactly what was presented: no bit is dropped and no
reserved code is let through. [30_encoding.md R47; 30_encoding.md R55; 30_encoding.md R58; 30_encoding.md R60] -/
def Obligations.EncodeUndoesDecode : Prop :=
  ∀ (d : Drive) (i : Instr), decode d = .ok i → encode i = d ∧ i.wellFormed = true

/-- A digit code 85 to 127 on the SYM or DEC5 port is rejected by the decoder and refused by the machine. SYM with a
code above 84, and DEC5 with a code above 84 in any one of its five fields, are refused as reservedDigit in every
state and rejected by the decoder. A step with only rejected words on the ports gives no result: it is refused when
the handshake waits for the host, and otherwise goes on and leaves them standing. Whatever else stands on the ports, a
step leaves a rejected word unanswered. (The refusal is R60's; when it stops a step is the model's choice, log 11.)
[30_encoding.md R60 (row digit code 85 to 127); 41_decoder.md R80; 93_implementation_defined.md U7;
notes/assumptions/11.md] -/
def Obligations.ReservedDigitCodesAreRefused : Prop :=
  (∀ (s : State) (v : BitVec 7), 85 ≤ v.toNat →
    exec (.sym v) s = .refused .reservedDigit ∧ decode (encode (.sym v)) = .error .symReservedDigit) ∧
  (∀ (s : State) (d0 d1 d2 d3 d4 : BitVec 7),
    85 ≤ d0.toNat ∨ 85 ≤ d1.toNat ∨ 85 ≤ d2.toNat ∨ 85 ≤ d3.toNat ∨ 85 ≤ d4.toNat →
    exec (.dec5 d0 d1 d2 d3 d4) s = .refused .reservedDigit ∧
      decode (encode (.dec5 d0 d1 d2 d3 d4)) = .error .dec5ReservedDigit) ∧
  (∀ s : State, s.probes ≠ [] → (∀ p ∈ s.probes, ∃ e : Reject, decodePort p = .error e) →
    (handshakeMoves s = false → step s = .refused .reservedDigit) ∧
    (∀ t : State, step s = .next t → handshakeMoves s = true ∧ t.probes = s.probes ∧ t.portResults = s.portResults)) ∧
  (∀ (s t : State) (p : PortWord) (e : Reject), p ∈ s.probes → decodePort p = .error e → step s = .next t → p ∈ t.probes)

/-- SYM of a digit 0 to 84 completes with the character at that position of the alphabet. In every state, SYM of a
code v below 85 answers a next state in which the port has given entry v of the alphabet and nothing else has changed.
[40_encoder.md R63; 30_encoding.md R58] -/
def Obligations.SymGivesTheCharacterOfTheDigit : Prop :=
  ∀ (s : State) (v : BitVec 7) (h : v.toNat < 85),
    exec (.sym v) s = .next { s with portResults := s.portResults ++ [.symC (s.cfg.alphabet[v.toNat])] }

/-- VAL of any octet completes with the digit whose character it is, or NONE. In every state whose alphabet has
distinct printable characters (R51), VAL of any octet c answers a next state in which the port has given r and nothing
else has changed; r is the digit v exactly when entry v of the alphabet is c, and NONE exactly when no entry is c.
[41_decoder.md R71; 30_encoding.md R54; 30_encoding.md R58] -/
def Obligations.ValGivesTheDigitOfTheCharacter : Prop :=
  ∀ (s : State) (c : Byte), meetsSource s.cfg.alphabet = true →
    ∃ r : Option Digit, exec (.val c) s = .next { s with portResults := s.portResults ++ [.valD r] } ∧
      (∀ v : Digit, r = some v ↔ s.cfg.alphabet[v] = c) ∧
      (r = none ↔ ∀ v : Digit, s.cfg.alphabet[v] ≠ c)

/-- SYM and VAL are exact inverses. For every alphabet as R51 requires: VAL(SYM(v)) = v for every digit v; SYM(VAL(c))
= c for every member c; VAL(c) = NONE for every non-member. [R90] -/
def Obligations.SymAndValAreInverses : Prop :=
  ∀ a : Alphabet, meetsSource a = true →
    (∀ v : Digit, valOf a (symOf a v) = some v) ∧
    (∀ c : Byte, c ∈ a.toList → ∃ v : Digit, valOf a c = some v ∧ symOf a v = c) ∧
    (∀ c : Byte, c ∉ a.toList → valOf a c = none)

/-- ENC32 of any word completes with its five base-85 digits packed most significant first. In every state, ENC32 of
every word w answers a next state in which the port has given the 35-bit vector whose field i (d[0] in bits 34:28) is
(w div 85^(4-i)) mod 85, and nothing else has changed. [40_encoder.md R64; 30_encoding.md R47 (packing); 42_laws.md
R82] -/
def Obligations.Enc32GivesTheFiveDigitsOfTheWord : Prop :=
  ∀ (s : State) (w : Word), exec (.enc32 w) s = .next { s with portResults := s.portResults ++ [.encD (BitVec.ofNat 35
    (w.toNat / 85 ^ 4 % 85 * 2 ^ 28 + w.toNat / 85 ^ 3 % 85 * 2 ^ 21 + w.toNat / 85 ^ 2 % 85 * 2 ^ 14 +
      w.toNat / 85 % 85 * 2 ^ 7 + w.toNat % 85))] }

/-- ENC32 has the closed form of R82, its value is the word, and five divisions leave nothing. For every word w: digit
i of ENC32(w) is (w div 85^(4-i)) mod 85; value(ENC32(w)) = w; and after the five divisions of R64 the working value
is w div 85^5, which is 0. [R82] -/
def Obligations.Enc32ClosedForm : Prop :=
  ∀ w : Word,
    ((enc32 w).d0.val = w.toNat / 85 ^ 4 % 85 ∧ (enc32 w).d1.val = w.toNat / 85 ^ 3 % 85 ∧
      (enc32 w).d2.val = w.toNat / 85 ^ 2 % 85 ∧ (enc32 w).d3.val = w.toNat / 85 % 85 ∧
      (enc32 w).d4.val = w.toNat % 85) ∧
    valueOf (enc32 w) = w.toNat ∧
    (quotient (quotient (quotient (quotient (quotient w))))).toNat = w.toNat / 85 ^ 5 ∧ w.toNat / 85 ^ 5 = 0

/-- The image of ENC32 is exactly the groups of value below 2^32. A group is ENC32 of some word exactly when its value
is below 2^32, and exactly when it is at or before [82,23,54,12,0] = ENC32(0xFFFFFFFF) in dictionary order; d[0] is at
most 82; under the default alphabet the first character of an encoded group is never $ (0x24) or # (0x23); every digit
appears in each of the positions 1 to 4. [R83] -/
def Obligations.Enc32RangeIsTheGroupsThatDoNotOverflow : Prop :=
  (∀ d : Group, (∃ w : Word, enc32 w = d) ↔ valueOf d < 2 ^ 32) ∧
  (∀ d : Group, valueOf d < 2 ^ 32 ↔ dictBefore d ⟨82, 23, 54, 12, 0⟩ ∨ d = ⟨82, 23, 54, 12, 0⟩) ∧
  enc32 0xFFFFFFFF#32 = ⟨82, 23, 54, 12, 0⟩ ∧
  (∀ w : Word, (enc32 w).d0.val ≤ 82) ∧
  (∀ b : Block, (encBlk defaultAlphabet b).c0 ≠ 0x24#8 ∧ (encBlk defaultAlphabet b).c0 ≠ 0x23#8) ∧
  (∀ v : Digit, (∃ w, (enc32 w).d1 = v) ∧ (∃ w, (enc32 w).d2 = v) ∧ (∃ w, (enc32 w).d3 = v) ∧ (∃ w, (enc32 w).d4 = v))

/-- value(d) is the base-85 value, a bijection onto 0 to 85^5 - 1, increasing in dictionary order. value(d) is
d[0]*52200625 + d[1]*614125 + d[2]*7225 + d[3]*85 + d[4]; it is at most 4437053124; every number up to that is the
value of exactly one group; it is strictly increasing in dictionary order. [R81] -/
def Obligations.ValueCountsGroupsInDictionaryOrder : Prop :=
  (∀ d : Group, valueOf d =
    d.d0.val * 52200625 + d.d1.val * 614125 + d.d2.val * 7225 + d.d3.val * 85 + d.d4.val) ∧
  (∀ d : Group, valueOf d ≤ 4437053124) ∧
  (∀ n : Nat, n ≤ 4437053124 → ∃ d : Group, valueOf d = n ∧ ∀ e : Group, valueOf e = n → e = d) ∧
  (∀ d e : Group, dictBefore d e ↔ valueOf d < valueOf e)

/-- DEC5 of five digits completes with their base-85 value modulo 2^32. In every state, DEC5 of five fields below 85
whose group does not overflow (under any OVERFLOW_POLICY), or of any five fields below 85 under WRAP_EXACT, answers a
next state in which the port has given the value modulo 2^32, and nothing else has changed. [41_decoder.md R72;
41_decoder.md R73 (WRAP_EXACT); 30_encoding.md R58] -/
def Obligations.Dec5GivesTheValueModuloTheWord : Prop :=
  ∀ (s : State) (d0 d1 d2 d3 d4 : BitVec 7),
    d0.toNat < 85 → d1.toNat < 85 → d2.toNat < 85 → d3.toNat < 85 → d4.toNat < 85 →
    s.cfg.overflow = .wrapExact ∨
      d0.toNat * 85 ^ 4 + d1.toNat * 85 ^ 3 + d2.toNat * 85 ^ 2 + d3.toNat * 85 + d4.toNat < 2 ^ 32 →
    exec (.dec5 d0 d1 d2 d3 d4) s = .next { s with portResults := s.portResults ++ [.decW (BitVec.ofNat 32
      (d0.toNat * 85 ^ 4 + d1.toNat * 85 ^ 3 + d2.toNat * 85 ^ 2 + d3.toNat * 85 + d4.toNat))] }

/-- An overflowing group on the DEC5 port: a free word under ANY_VALUE, a fault under FAULT. For every group d of
value 2^32 or more: under ANY_VALUE, DEC5 of its fields answers a next state in which the port has given the free word
of that group and nothing else has changed; under FAULT it faults with overflowError. That the free word is a function
of the group is the model's choice (log 4); the statement holds whatever word it is. [41_decoder.md R73;
93_implementation_defined.md U1 and U2; notes/assumptions/4.md] -/
def Obligations.Dec5OfAnOverflowingGroupFollowsThePolicy : Prop :=
  ∀ (s : State) (d : Group), 2 ^ 32 ≤ valueOf d →
    (s.cfg.overflow = .anyValue →
      exec (.dec5 (digitField d.d0) (digitField d.d1) (digitField d.d2) (digitField d.d3) (digitField d.d4)) s =
        .next { s with portResults := s.portResults ++ [.decW (Config.overflowWord d)] }) ∧
    (s.cfg.overflow = .fault →
      exec (.dec5 (digitField d.d0) (digitField d.d1) (digitField d.d2) (digitField d.d3) (digitField d.d4)) s =
        .fault .overflowError)

/-- DEC5 is the value modulo 2^32, whether reduced at every step or once at the end. For every group, the fold of R72
with every step modulo 2^32 gives value(d) mod 2^32: value(d) when that is below 2^32, and value(d) - 4294967296
otherwise. [R84] -/
def Obligations.Dec5ClosedForm : Prop :=
  ∀ d : Group,
    (dec5 d).toNat = valueOf d % 2 ^ 32 ∧
    (valueOf d < 2 ^ 32 → (dec5 d).toNat = valueOf d) ∧
    (2 ^ 32 ≤ valueOf d → (dec5 d).toNat + 4294967296 = valueOf d)

/-- Where the 32-bit wrap happens in DEC5. With p = d[0]*85^3 + d[1]*85^2 + d[2]*85 + d[3]: the first three folds are
exact and the fourth add gives p exactly; the fourth multiply is exact exactly when p < 50529028; the last add wraps
exactly when p = 50529027 and d[4] >= 1, so the two wraps exclude each other; and one of them happens exactly when
value(d) >= 2^32. [42_laws.md R85] -/
def Obligations.Dec5WrapsAtMostOnceAndWhere : Prop :=
  ∀ (d : Group) (p : Nat), p = d.d0.val * 85 ^ 3 + d.d1.val * 85 ^ 2 + d.d2.val * 85 + d.d3.val →
    (foldDigit 0#32 d.d0).toNat = d.d0.val * 85 ∧
    (foldDigit (foldDigit 0#32 d.d0) d.d1).toNat = (d.d0.val * 85 + d.d1.val) * 85 ∧
    (foldDigit (foldDigit (foldDigit 0#32 d.d0) d.d1) d.d2).toNat =
      ((d.d0.val * 85 + d.d1.val) * 85 + d.d2.val) * 85 ∧
    (foldDigit (foldDigit (foldDigit 0#32 d.d0) d.d1) d.d2 + digitWord d.d3).toNat = p ∧
    ((foldFour d).toNat = p * 85 ↔ p < 50529028) ∧
    (2 ^ 32 ≤ (foldFour d).toNat + d.d4.val ↔ p = 50529027 ∧ 1 ≤ d.d4.val) ∧
    (2 ^ 32 ≤ valueOf d ↔ 50529028 ≤ p ∨ (p = 50529027 ∧ 1 ≤ d.d4.val))

/-- DEC5 undoes ENC32 on every word. For every 32-bit word w, DEC5(ENC32(w)) = w. [R86] -/
def Obligations.Dec5UndoesEnc32 : Prop :=
  ∀ w : Word, dec5 (enc32 w) = w

/-- ENC32 undoes DEC5 exactly on the groups that do not overflow. For every group d, ENC32(DEC5(d)) = d if and only if
value(d) < 2^32; for an overflowing group, ENC32(DEC5(d)) is the group of value value(d) - 2^32, which differs from d.
[R87] -/
def Obligations.Enc32UndoesDec5ExactlyBelowTheWord : Prop :=
  ∀ d : Group,
    (enc32 (dec5 d) = d ↔ valueOf d < 2 ^ 32) ∧
    (2 ^ 32 ≤ valueOf d → valueOf (enc32 (dec5 d)) + 2 ^ 32 = valueOf d ∧ enc32 (dec5 d) ≠ d)

/-- Under WRAP_EXACT, words up to 142085828 have exactly two groups and the others exactly one. Under WRAP_EXACT: for
every word w up to 142085828 there is an overflowing group of value w + 2^32, and a group decodes to w exactly when it
is that group or ENC32(w); for every larger word, a group decodes to it exactly when it is ENC32(w); with the two
examples of R89. [R89] -/
def Obligations.Dec5IsTwoToOneOnTheSmallWords : Prop :=
  (∀ w : Word, w.toNat ≤ 142085828 → ∃ e : Group, valueOf e = w.toNat + 2 ^ 32 ∧ e ≠ enc32 w ∧
    ∀ d : Group, dec5Under .wrapExact d = .ok w ↔ d = enc32 w ∨ d = e) ∧
  (∀ w : Word, 142085829 ≤ w.toNat → ∀ d : Group, dec5Under .wrapExact d = .ok w ↔ d = enc32 w) ∧
  dec5 ⟨82, 23, 54, 12, 1⟩ = dec5 ⟨0, 0, 0, 0, 0⟩ ∧ dec5 ⟨0, 0, 0, 0, 0⟩ = 0#32 ∧
  dec5 ⟨84, 84, 84, 84, 84⟩ = dec5 ⟨2, 61, 30, 72, 83⟩ ∧ dec5 ⟨2, 61, 30, 72, 83⟩ = 0x08780EC4#32

/-- A text group is one 40-bit vector, c[0] in bits 39:32 down to c[4] in bits 7:0, and the vector is the text group.
Bits 39:32, 31:24, 23:16, 15:8 and 7:0 of a packed text group are c[0] to c[4]; unpacking undoes packing and packing
undoes unpacking; the group of a block, packed, holds SYM(d[i]) in those bits, d being ENC32 of the block's word.
[30_encoding.md R49 (bit vector); 40_encoder.md R65] -/
def Obligations.TextGroupIsOneVectorFirstCharacterOnTop : Prop :=
  (∀ t : TextGroup, (packText t).extractLsb' 32 8 = t.c0 ∧ (packText t).extractLsb' 24 8 = t.c1 ∧
    (packText t).extractLsb' 16 8 = t.c2 ∧ (packText t).extractLsb' 8 8 = t.c3 ∧ (packText t).extractLsb' 0 8 = t.c4) ∧
  (∀ t : TextGroup, unpackText (packText t) = t) ∧ (∀ v : BitVec 40, packText (unpackText v) = v) ∧
  (∀ (a : Alphabet) (b : Block), (packText (encBlk a b)).extractLsb' 32 8 = symOf a (enc32 (be32 b)).d0 ∧
    (packText (encBlk a b)).extractLsb' 24 8 = symOf a (enc32 (be32 b)).d1 ∧
    (packText (encBlk a b)).extractLsb' 16 8 = symOf a (enc32 (be32 b)).d2 ∧
    (packText (encBlk a b)).extractLsb' 8 8 = symOf a (enc32 (be32 b)).d3 ∧
    (packText (encBlk a b)).extractLsb' 0 8 = symOf a (enc32 (be32 b)).d4)

/-- ENCBLK and DECGRP are inverse bijections between blocks and the text groups that do not overflow. For every
alphabet as R51 requires and every policy: DECGRP of ENCBLK of a block is the block; and for every text group of
members whose value is below 2^32, ENCBLK of its DECGRP is the text group. [42_laws.md R88; 40_encoder.md R65;
41_decoder.md R74] -/
def Obligations.TextGroupsOfWordsAreABijection : Prop :=
  ∀ (cfg : Config) (base : Nat), meetsSource cfg.alphabet = true →
    (∀ b : Block, decGrp cfg (encBlk cfg.alphabet b) base = .ok b) ∧
    (∀ (t : TextGroup) (d : Group), digitsOf cfg.alphabet t = some d → valueOf d < 2 ^ 32 →
      ∃ b : Block, decGrp cfg t base = .ok b ∧ encBlk cfg.alphabet b = t)

/-- ENCODE of an aligned frame completes with the characters of the digits of every block. In every state, ENCODE of a
frame within MAX_LEN whose length is a multiple of 4 answers a next state in which Ok(OUT) is presented and nothing
else has changed; 4*len(OUT) = 5*len(IN); and character 5g+i of OUT is entry (w div 85^(4-i)) mod 85 of the alphabet,
where w is the big-endian word of octets 4g to 4g+3. [40_encoder.md R66; 20_memory.md R30, R31, R32; 42_laws.md R82]
-/
def Obligations.EncodeAnswersTheTextFrame : Prop :=
  ∀ (s : State) (input : Frame), accepts s.cfg input = true → input.length % 4 = 0 →
    ∃ out : Frame, exec (.encode input) s = .next { s with hs := .respond (.ok out) } ∧
      out.length * 4 = input.length * 5 ∧
      ∀ g, g < input.length / 4 → ∀ i, i < 5 →
        out[5 * g + i]? = s.cfg.alphabet[wordAt input g / 85 ^ (4 - i) % 85]?

/-- The result of ENCODE has length len/4*5, is a text frame, and DECODE does not reject it. For every alphabet as R51
requires and every policy, if ENCODE of IN gives OUT then len(OUT) = len(IN) div 4 * 5, which is a multiple of 5 (no
header, terminator or line end is added), every character of OUT is a member, and DECODE of OUT succeeds. [R67] -/
def Obligations.EncodeResultIsATextFrameDecodeTakes : Prop :=
  ∀ (cfg : Config) (input out : Frame), meetsSource cfg.alphabet = true → encodeFrame cfg input = .ok out →
    out.length = input.length / 4 * 5 ∧ out.length % 5 = 0 ∧ (∀ c ∈ out, isMember cfg.alphabet c = true) ∧
    isTextFrame cfg.alphabet out = true ∧ ∃ b : Frame, decodeFrame cfg out = .ok b

/-- Output group g of ENCODE is ENCBLK of input block g and of nothing else; ENCODE distributes over concatenation.
For every alphabet as R51 requires: OUT[5g..5g+5] = ENCBLK(IN[4g..4g+4]) for every g; two aligned inputs of one length
agree in block g exactly when their outputs agree in group g; and ENCODE(X ++ Y) = ENCODE(X) ++ ENCODE(Y) when both
lengths are multiples of 4. [R68] -/
def Obligations.EncodeGroupsAreIndependentAndInOrder : Prop :=
  ∀ cfg : Config, meetsSource cfg.alphabet = true →
    (∀ (input out : Frame) (g : Nat) (b : Block), encodeFrame cfg input = .ok out →
      memRead input (4 * g) 4 = blockFrame b → memRead out (5 * g) 5 = textFrame (encBlk cfg.alphabet b)) ∧
    (∀ (x y outX outY : Frame) (g : Nat), x.length = y.length → encodeFrame cfg x = .ok outX → encodeFrame cfg y = .ok outY →
      (memRead x (4 * g) 4 = memRead y (4 * g) 4 ↔ memRead outX (5 * g) 5 = memRead outY (5 * g) 5)) ∧
    (∀ x y : Frame, x.length % 4 = 0 → y.length % 4 = 0 →
      ∃ outX outY : Frame, encodeFrame cfg x = .ok outX ∧ encodeFrame cfg y = .ok outY ∧
        encodeFrame cfg (x ++ y) = .ok (outX ++ outY))

/-- A wrong length is answered LengthError, whatever the frame holds. In every state and for every frame within
MAX_LEN: ENCODE of a length that is not a multiple of 4, and DECODE of a length that is not a multiple of 5 (also when
it holds non-members), answer a next state in which LengthError is presented, with no output frame and nothing else
changed; ENCODE answers it for no other frame. [R93] -/
def Obligations.LengthGuards : Prop :=
  ∀ (s : State) (input : Frame), accepts s.cfg input = true →
    (exec (.encode input) s = .next { s with hs := .respond .lengthError } ↔ input.length % 4 ≠ 0) ∧
    (exec (.decode input) s = .next { s with hs := .respond .lengthError } ↔ input.length % 5 ≠ 0)

/-- DECODE of a text frame completes with the word of every group, modulo 2^32. In every state, DECODE of a text frame
within MAX_LEN, under WRAP_EXACT or (under any policy) when none of its groups overflows, answers a next state in
which Ok(OUT) is presented and nothing else has changed; 5*len(OUT) = 4*len(IN); and the big-endian word of block g of
OUT is the value of the digits of group g modulo 2^32. [41_decoder.md R75; 41_decoder.md R73 (WRAP_EXACT);
20_memory.md R30, R31, R32; 42_laws.md R84] -/
def Obligations.DecodeAnswersTheBinaryFrame : Prop :=
  ∀ (s : State) (input : Frame), accepts s.cfg input = true → isTextFrame s.cfg.alphabet input = true →
    (s.cfg.overflow = .wrapExact ∨
      ∀ g, g < input.length / 5 → ∀ d, holdsGroup s.cfg.alphabet input g d → valueOf d < 2 ^ 32) →
    ∃ out : Frame, exec (.decode input) s = .next { s with hs := .respond (.ok out) } ∧
      out.length * 5 = input.length * 4 ∧
      ∀ g, g < input.length / 5 → ∀ d, holdsGroup s.cfg.alphabet input g d → wordAt out g = valueOf d % 2 ^ 32

/-- Under ANY_VALUE, DECODE of a text frame completes; only the words of overflowing groups are free. In every state
under ANY_VALUE, DECODE of a text frame within MAX_LEN answers a next state in which Ok(OUT) is presented and nothing
else has changed; block g of OUT is the value of group g when that is below 2^32, and the free word of the group
otherwise (a function of the group: log 4). [41_decoder.md R73 (ANY_VALUE); 93_implementation_defined.md U1;
notes/assumptions/4.md] -/
def Obligations.DecodeUnderAnyValueDrawsOnlyForOverflowingGroups : Prop :=
  ∀ (s : State) (input : Frame), accepts s.cfg input = true → isTextFrame s.cfg.alphabet input = true →
    s.cfg.overflow = .anyValue →
    ∃ out : Frame, exec (.decode input) s = .next { s with hs := .respond (.ok out) } ∧
      out.length * 5 = input.length * 4 ∧
      ∀ g, g < input.length / 5 → ∀ d, holdsGroup s.cfg.alphabet input g d →
        (valueOf d < 2 ^ 32 → wordAt out g = valueOf d) ∧
        (2 ^ 32 ≤ valueOf d → wordAt out g = (Config.overflowWord d).toNat)

/-- Under FAULT, DECODE faults on an overflowing group that no non-member precedes. In every state under FAULT, DECODE
of a frame within MAX_LEN whose length is a multiple of 5, which holds an overflowing group g and no non-member before
that group, faults with overflowError. That the groups are taken eagerly, in order, is the model's choice (log 5).
[41_decoder.md R73 (FAULT); 93_implementation_defined.md U2; notes/assumptions/5.md] -/
def Obligations.DecodeUnderFaultFaultsOnAnOverflowingGroup : Prop :=
  ∀ (s : State) (input : Frame) (g : Nat) (d : Group), accepts s.cfg input = true → input.length % 5 = 0 →
    s.cfg.overflow = .fault → g < input.length / 5 → holdsGroup s.cfg.alphabet input g d → 2 ^ 32 ≤ valueOf d →
    (∀ c ∈ input.take (5 * g), isMember s.cfg.alphabet c = true) →
    exec (.decode input) s = .fault .overflowError

/-- DECODE of a right length reports the non-member at the lowest index. In every state, for a frame within MAX_LEN
whose length is a multiple of 5, whose octet at index p is a non-member and whose octets before p are members: DECODE
answers a next state in which InvalidCharacter with that octet and p is presented, with no output frame and nothing
else changed; under FAULT this is claimed only when no whole group before p overflows (log 5). [41_decoder.md R74,
R75, R77; 60_exceptions.md R100, R104; notes/assumptions/5.md (FAULT only)] -/
def Obligations.DecodeReportsTheLowestNonMember : Prop :=
  ∀ (s : State) (input : Frame) (p : Nat) (c : Byte), accepts s.cfg input = true → input.length % 5 = 0 →
    input[p]? = some c → isMember s.cfg.alphabet c = false → (∀ x ∈ input.take p, isMember s.cfg.alphabet x = true) →
    (s.cfg.overflow ≠ .fault ∨
      ∀ g, g < p / 5 → ∀ d, holdsGroup s.cfg.alphabet input g d → valueOf d < 2 ^ 32) →
    exec (.decode input) s = .next { s with hs := .respond (.invalidCharacter c p) }

/-- The four rows of R103: which response DECODE gives, and that a non-member never decodes to OK. For every policy
but FAULT (which is not the spec's default): a right length with no non-member gives Ok; a right length with one gives
InvalidCharacter(IN[p], p) for the lowest such p; a wrong length gives LengthError whether or not a non-member is
present. ENCODE raises no error but LengthError. A frame that holds a non-member decodes to Ok under no policy. [R94;
R103] -/
def Obligations.DecodeErrorPriority : Prop :=
  (∀ (cfg : Config) (input : Frame), cfg.overflow ≠ .fault →
    (input.length % 5 = 0 → (∀ c ∈ input, isMember cfg.alphabet c = true) → ∃ out : Frame, decodeFrame cfg input = .ok out) ∧
    (input.length % 5 = 0 → (∃ c ∈ input, isMember cfg.alphabet c = false) →
      ∃ (p : Nat) (c : Byte), input[p]? = some c ∧ isMember cfg.alphabet c = false ∧
        (∀ x ∈ input.take p, isMember cfg.alphabet x = true) ∧ decodeFrame cfg input = .error (.invalidCharacter c p)) ∧
    (input.length % 5 ≠ 0 → decodeFrame cfg input = .error .lengthError)) ∧
  (∀ (cfg : Config) (input : Frame) (e : Raise), encodeFrame cfg input = .error e → e = .lengthError) ∧
  (∀ (cfg : Config) (input : Frame), (∃ c ∈ input, isMember cfg.alphabet c = false) →
    ∀ out : Frame, decodeFrame cfg input ≠ .ok out)

/-- DECODE gives len/5*4 octets, each block from its own group and nothing else, and distributes over concatenation.
For every parameters: if DECODE of IN gives OUT then len(OUT) = len(IN) div 5 * 4; wherever two decoded frames hold
equal text groups their outputs hold equal blocks; and if DECODE(X) and DECODE(Y) both succeed, DECODE(X ++ Y) is
their concatenation. Under WRAP_EXACT and FAULT this is R76; under ANY_VALUE, that two equal overflowing groups give
equal blocks is the model's choice (log 4). [41_decoder.md R76; 42_laws.md R95; notes/assumptions/4.md] -/
def Obligations.DecodeGroupsAreIndependent : Prop :=
  ∀ cfg : Config,
    (∀ input out : Frame, decodeFrame cfg input = .ok out → out.length = input.length / 5 * 4) ∧
    (∀ (x y outX outY : Frame) (g h : Nat), decodeFrame cfg x = .ok outX → decodeFrame cfg y = .ok outY →
      memRead x (5 * g) 5 = memRead y (5 * h) 5 → memRead outX (4 * g) 4 = memRead outY (4 * h) 4) ∧
    (∀ x y outX outY : Frame, decodeFrame cfg x = .ok outX → decodeFrame cfg y = .ok outY →
      decodeFrame cfg (x ++ y) = .ok (outX ++ outY))

/-- Validating the whole frame first and validating group by group give the same answer. For every policy but FAULT,
and every frame: DECODE with an upfront pass over all characters answers exactly what the group-by-group DECODE
answers. [41_decoder.md R77; 93_implementation_defined.md U3] -/
def Obligations.UpfrontValidationGivesTheSameResponse : Prop :=
  ∀ (cfg : Config) (input : Frame), cfg.overflow ≠ .fault → decodeUpfront cfg input = decodeFrame cfg input

/-- A frame longer than MAX_LEN is refused, not answered LengthError. If MAX_LEN is m and the frame has more than m
octets, ENCODE and DECODE of it are refused as frameTooLong in every state, whatever its length modulo 4 or 5; and a
step in IDLE that would accept such a command does not: it is refused, or, if some operand on the ports has an answer,
it gives the answers and leaves the command presented. (That a stop waits for the answers of that step is the model's
choice, log 11.) [70_reset_and_hazards.md R130; 30_encoding.md R60 (row frame longer than MAX_LEN);
notes/assumptions/11.md] -/
def Obligations.FrameAboveMaxLenIsRefused : Prop :=
  ∀ (s : State) (input : Frame) (m : Nat), s.cfg.maxLen = some m → m < input.length →
    exec (.encode input) s = .refused .frameTooLong ∧ exec (.decode input) s = .refused .frameTooLong ∧
    ∀ (op : BitVec 1) (rest : List Command), s.rst = false → s.hs = .idle →
      s.cmds = ⟨op, input⟩ :: rest → step s = if portsAnswer s then .next (servePorts s) else .refused .frameTooLong

/-- DECODE of ENCODE of an aligned binary frame is the frame, with no exception. For every state whose alphabet is as
R51 requires (any policy, any MAX_LEN) and every frame b of length a multiple of 4: ENCODE(b) = Ok(t) and DECODE(t) =
Ok(b); the machine presents t after ENCODE b and b after DECODE t wherever MAX_LEN admits the frame. [R91] -/
def Obligations.BinaryRoundTrip : Prop :=
  ∀ (s : State) (b : Frame), meetsSource s.cfg.alphabet = true → b.length % 4 = 0 →
    ∃ t : Frame, encodeFrame s.cfg b = .ok t ∧ decodeFrame s.cfg t = .ok b ∧
      (accepts s.cfg b = true → exec (.encode b) s = .next { s with hs := .respond (.ok t) }) ∧
      (accepts s.cfg t = true → exec (.decode t) s = .next { s with hs := .respond (.ok b) })

/-- ENCODE of DECODE of a text frame is the text, except in exactly the overflowing groups. For every alphabet as R51
requires and every text frame t: if no group of t overflows, DECODE(t) = Ok(b) and ENCODE(b) = Ok(t) under every
policy; and under WRAP_EXACT, DECODE(t) = Ok(b), ENCODE(b) = Ok(t'), t' is a text frame of the same length, and group
g of t' equals group g of t exactly when it does not overflow. With the example of R92 under the default alphabet.
[R92] -/
def Obligations.TextRoundTripExceptOverflowingGroups : Prop :=
  (∀ (cfg : Config) (t : Frame), meetsSource cfg.alphabet = true → isTextFrame cfg.alphabet t = true →
    (∀ g, g < t.length / 5 → ∀ d, holdsGroup cfg.alphabet t g d → valueOf d < 2 ^ 32) →
    ∃ b : Frame, decodeFrame cfg t = .ok b ∧ encodeFrame cfg b = .ok t) ∧
  (∀ (cfg : Config) (t : Frame), meetsSource cfg.alphabet = true → isTextFrame cfg.alphabet t = true →
    cfg.overflow = .wrapExact →
    ∃ b t' : Frame, decodeFrame cfg t = .ok b ∧ encodeFrame cfg b = .ok t' ∧
      isTextFrame cfg.alphabet t' = true ∧ t'.length = t.length ∧
      ∀ g, g < t.length / 5 → ∀ d, holdsGroup cfg.alphabet t g d →
        (memRead t' (5 * g) 5 = memRead t (5 * g) 5 ↔ valueOf d < 2 ^ 32)) ∧
  decodeFrame defaultConfig [0x23#8, 0x23#8, 0x23#8, 0x23#8, 0x23#8] = .ok [0x08#8, 0x78#8, 0x0E#8, 0xC4#8] ∧
  encodeFrame defaultConfig [0x08#8, 0x78#8, 0x0E#8, 0xC4#8] = .ok [0x32#8, 0x5A#8, 0x75#8, 0x26#8, 0x24#8]

/-- The text is a quarter longer than the binary. For every successful ENCODE len(OUT)*4 = len(IN)*5; for every
successful DECODE len(OUT)*5 = len(IN)*4. [R96] -/
def Obligations.LengthLaws : Prop :=
  ∀ (cfg : Config) (input out : Frame),
    (encodeFrame cfg input = .ok out → out.length * 4 = input.length * 5) ∧
    (decodeFrame cfg input = .ok out → out.length * 5 = input.length * 4)

/-- The source's six vectors hold for every alphabet that meets R51 and R52. In every state whose alphabet meets R51
and R52 and whose MAX_LEN admits 40 octets, under every policy: V1 (HelloWorld encoded), V2 (decoded), V3 and V4
(LengthError), V5 (~~~~~ is InvalidCharacter 0x7E at 0) and V6 (the 40-character text decodes, and re-encodes to
itself). [95_test_vectors.md V1 to V6; 30_encoding.md R52] -/
def Obligations.SourceVectorsHoldForEveryAdmissibleAlphabet : Prop :=
  ∀ s : State, admissible s.cfg.alphabet = true → accepts s.cfg (sourceText.flatMap textFrame) = true →
    exec (.encode [0x86#8, 0x4F#8, 0xD2#8, 0x6F#8, 0xB5#8, 0x59#8, 0xF7#8, 0x5B#8]) s =
      .next { s with hs := .respond (.ok [0x48#8, 0x65#8, 0x6C#8, 0x6C#8, 0x6F#8, 0x57#8, 0x6F#8, 0x72#8, 0x6C#8, 0x64#8]) } ∧
    exec (.decode [0x48#8, 0x65#8, 0x6C#8, 0x6C#8, 0x6F#8, 0x57#8, 0x6F#8, 0x72#8, 0x6C#8, 0x64#8]) s =
      .next { s with hs := .respond (.ok [0x86#8, 0x4F#8, 0xD2#8, 0x6F#8, 0xB5#8, 0x59#8, 0xF7#8, 0x5B#8]) } ∧
    exec (.encode [0x01#8, 0x02#8, 0x03#8, 0x04#8, 0x05#8]) s = .next { s with hs := .respond .lengthError } ∧
    exec (.decode [0x66#8, 0x6F#8, 0x75#8, 0x72#8]) s = .next { s with hs := .respond .lengthError } ∧
    exec (.decode [0x7E#8, 0x7E#8, 0x7E#8, 0x7E#8, 0x7E#8]) s =
      .next { s with hs := .respond (.invalidCharacter 0x7E#8 0) } ∧
    ∃ b : Frame, exec (.decode (sourceText.flatMap textFrame)) s = .next { s with hs := .respond (.ok b) } ∧
      exec (.encode b) s = .next { s with hs := .respond (.ok (sourceText.flatMap textFrame)) }

/-- What an operation changes: the response of the command port, or one result of its own port, and nothing else. If
an operation answers a next state: ENCODE and DECODE put the handshake in RESPOND and change nothing else; ENC32,
DEC5, SYM and VAL append one result of their own port and change nothing else, the handshake included. [10_state.md
R13, R17; 40_encoder.md R70; 41_decoder.md R79 (g); 60_exceptions.md R104, R105] -/
def Obligations.ExecChangesOnlyItsOwnPort : Prop :=
  ∀ (i : Instr) (s t : State), exec i s = .next t →
    match i with
    | .encode _ => ∃ r : Response, t = { s with hs := .respond r }
    | .decode _ => ∃ r : Response, t = { s with hs := .respond r }
    | .enc32 _ => ∃ d : BitVec 35, t = { s with portResults := s.portResults ++ [.encD d] }
    | .dec5 _ _ _ _ _ => ∃ w : Word, t = { s with portResults := s.portResults ++ [.decW w] }
    | .sym _ => ∃ c : Byte, t = { s with portResults := s.portResults ++ [.symC c] }
    | .val _ => ∃ v : Option Digit, t = { s with portResults := s.portResults ++ [.valD v] }

/-- The answer to an operation does not depend on anything that happened before it. For every operation and any two
states with equal parameters, whatever else differs: both stop with the same fault or refusal, or both answer a next
state, with the same response (ENCODE, DECODE) or the same port result (ENC32, DEC5, SYM, VAL). [10_state.md R13, R23;
42_laws.md R95; 20_memory.md R42] -/
def Obligations.AnswersDependOnOperandAndParametersOnly : Prop :=
  ∀ (i : Instr) (s1 s2 : State), s1.cfg = s2.cfg →
    (∀ r, exec i s1 = .fault r → exec i s2 = .fault r) ∧
    (∀ r, exec i s1 = .refused r → exec i s2 = .refused r) ∧
    (∀ t1, exec i s1 = .next t1 → ∃ t2, exec i s2 = .next t2 ∧
      (t1.hs = t2.hs ∨ (t1.hs = s1.hs ∧ t2.hs = s2.hs)) ∧
      ∃ rs : List PortResult, t1.portResults = s1.portResults ++ rs ∧ t2.portResults = s2.portResults ++ rs)

/-- A step runs the operation that was accepted and, beside it, the operands that stand on the ports. For every well-
formed operation i. If i encodes to an operand on the ports and exec of i gives the result r, then r is that operand's
answer in the step. If it is the only operand: when exec of i with it taken answers t, the ports leave t and the step
goes on as the handshake's move from t does; where the handshake waits for the host, step is exec of i, whatever it
answers. If i encodes to the command in BUSY and rst is released, step is exec of i from what the ports leave where
that answers, and exec of i itself when no operand stands. (That BUSY is one step is the model's choice, log 7, and so
is when an operand that stops stops the step, log 11.) [70_reset_and_hazards.md R125, R129; 30_encoding.md R55, R58;
notes/assumptions/7.md; notes/assumptions/11.md] -/
def Obligations.StepRunsThePresentedOperation : Prop :=
  ∀ (s : State) (i : Instr), i.wellFormed = true →
    (∀ (p : PortWord) (r : PortResult), encode i = .port p → p ∈ s.probes →
      exec i s = .next { s with portResults := s.portResults ++ [r] } → portAnswer s p = some r) ∧
    (∀ p : PortWord, encode i = .port p → s.probes = [p] →
      (∀ t : State, exec i { s with probes := [] } = .next t →
        servePorts s = t ∧ ∀ u, stepBlock t = .next u → step s = .next u) ∧
      (handshakeMoves s = false → step s = exec i { s with probes := [] })) ∧
    (∀ c : Command, encode i = .command c → s.rst = false → s.hs = .busy c →
      (∀ t, exec i (servePorts s) = .next t → step s = .next t) ∧ (s.probes = [] → step s = exec i s))

/-- A word of the opcode table placed by withFetchWord is what the next step runs. If the bits of a table row decode
to an operation i, then the next step of any state with that word placed runs i: for a command, it is exec of i in the
placed state; for a port, it is exec of i with the operand taken where the handshake waits for the host, and
otherwise, if exec of i answers t, it goes on as the handshake's move from t does. (How a word is placed is the
model's convention, logs 9 and 10.) [opcode_table.json; 30_encoding.md R55, R58; notes/assumptions/9.md;
notes/assumptions/10.md] -/
def Obligations.TableWordsRunNext : Prop :=
  ∀ (s : State) (nbits w : Nat) (i : Instr), decodeTableWord nbits w = some i →
    match tableDrive nbits w with
    | some (.command _) => step (s.withFetchWord nbits w) = exec i (s.withFetchWord nbits w)
    | some (.port _) =>
      (handshakeMoves { s with rst := false } = false →
        step (s.withFetchWord nbits w) = exec i { s with rst := false, probes := [] }) ∧
      (∀ t u : State, exec i { s with rst := false, probes := [] } = .next t → stepBlock t = .next u →
        step (s.withFetchWord nbits w) = .next u)
    | none => False

/-- Every function port answers by itself, beside the handshake, whatever it does, and neither changes the other. An
operand's answer is the result exec of its operation gives; an operand without one has no operation, or one that
stops. A step answers every operand on the ports that has an answer, in order, whatever stands beside it, and leaves
the others standing. Where the handshake does not wait for the host, step does to it exactly what it does with no
operand there and the ports have answered: in IDLE, BUSY and RESPOND, and while rst holds. Where it waits, and some
operand has an answer, step gives the answers and changes nothing else. A stop of the handshake's move stops the step
when no operand has an answer. (What is left of a stop beside answers is the model's choice, log 11.)
[70_reset_and_hazards.md R117, R125, R128; 30_encoding.md R58; notes/assumptions/11.md] -/
def Obligations.PortsAnswerBesideTheHandshake : Prop :=
  ∀ s : State,
    (∀ (p : PortWord) (i : Instr) (r : PortResult), decodePort p = .ok i →
      (portAnswer s p = some r ↔ exec i s = .next { s with portResults := s.portResults ++ [r] })) ∧
    (∀ p : PortWord, portAnswer s p = none ↔ ∀ i, decodePort p = .ok i → ∀ t, exec i s ≠ .next t) ∧
    servePorts s = { s with
      probes := s.probes.filter (fun p => (portAnswer s p).isNone)
      portResults := s.portResults ++ s.probes.filterMap (portAnswer s) } ∧
    (∀ u, handshakeMoves s = true → step { s with probes := [] } = .next u →
      step s = .next { u with probes := (servePorts s).probes, portResults := (servePorts s).portResults }) ∧
    (∀ p ∈ s.probes, ∀ r, portAnswer s p = some r → handshakeMoves s = false → step s = .next (servePorts s)) ∧
    ((∀ p ∈ s.probes, portAnswer s p = none) → handshakeMoves s = true →
      (∀ r, step { s with probes := [] } = .fault r → step s = .fault r) ∧
      (∀ r, step { s with probes := [] } = .refused r → step s = .refused r))

/-- In IDLE the block accepts the oldest command presented and goes BUSY; with none presented it does nothing. With
rst released, in IDLE with a first command within MAX_LEN, step takes that command, puts the handshake in BUSY with
it, and changes nothing else but what the ports answer beside it; in IDLE with no command presented and no operand
waiting, step changes nothing. (That of several commands presented the oldest is accepted is the model's queue, log
8.) [70_reset_and_hazards.md R118, R123, R125; notes/assumptions/8.md] -/
def Obligations.IdleAcceptsTheOldestCommand : Prop :=
  ∀ s : State, s.rst = false → s.hs = .idle →
    (∀ (c : Command) (rest : List Command), s.cmds = c :: rest → accepts s.cfg c.input = true →
      step s = .next { servePorts s with hs := .busy c, cmds := rest }) ∧
    (s.probes = [] → s.cmds = [] → step s = .next s)

/-- In RESPOND the response is delivered when rsp_ready holds, and waits otherwise. With rst released, in RESPOND: if
rsp_ready holds, step delivers the response, returns to IDLE and changes nothing else but what the ports answer beside
it; if not, and no operand waits, step changes nothing. [70_reset_and_hazards.md R125, R128] -/
def Obligations.RespondDeliversWhenTheHostIsReady : Prop :=
  ∀ (s : State) (r : Response), s.rst = false → s.hs = .respond r →
    (s.rspReady = true → step s = .next { servePorts s with hs := .idle, responses := s.responses ++ [r] }) ∧
    (s.probes = [] → s.rspReady = false → step s = .next s)

/-- rst puts the handshake in IDLE and does nothing else: no response is given, and the function ports go on
answering. In every state with rst asserted, whatever the handshake holds, step puts the handshake in IDLE and changes
nothing else but what the ports answer beside it, each operand that has an answer; with no operand nothing else
changes; no response is delivered or presented, the parameters are unchanged, and an abandoned command is not
answered. (That rst acts at a step is log 22, and that a command presented meanwhile stays presented, with cmd_ready
shown, is log 21, and the order in which the results of one step stand, and that an operand without an answer is left
standing, are log 11, all the model's choice.) [70_reset_and_hazards.md R117, R119; 10_state.md R14, R24;
notes/assumptions/11.md; notes/assumptions/21.md; notes/assumptions/22.md] -/
def Obligations.ResetInputIdlesAndDoesNothingElse : Prop :=
  ∀ s : State, s.rst = true →
    step s = .next { servePorts s with hs := .idle } ∧
    (s.probes = [] → step s = .next { s with hs := .idle }) ∧
    ∀ t, step s = .next t → responsePins t = none ∧ cmdReady t = true ∧ t.responses = s.responses ∧ t.cmds = s.cmds ∧
      t.cfg = s.cfg ∧ t.portResults = s.portResults ++ s.probes.filterMap (portAnswer s)

/-- A command is taken only in IDLE, one at a time, and is neither lost nor merged. If a step answers a next state,
then either the commands waiting are unchanged and the block did not enter BUSY from another state, or the block was
IDLE, exactly the oldest command left the queue, it is within MAX_LEN, and the handshake is BUSY with exactly it.
(That presented commands stand in a queue whose oldest is taken is the model's reading of R123, log 8; within MAX_LEN
is R130, log 6.) [70_reset_and_hazards.md R123, R130; notes/assumptions/6.md; notes/assumptions/8.md] -/
def Obligations.CommandsWaitUntilIdle : Prop :=
  ∀ s t : State, step s = .next t →
    (t.cmds = s.cmds ∧ ∀ c, t.hs = .busy c → s.hs = .busy c) ∨
    (s.hs = .idle ∧ ∃ c : Command, s.cmds = c :: t.cmds ∧ t.hs = .busy c ∧ accepts s.cfg c.input = true)

/-- No step changes the alphabet or another parameter, an input of the host, or what the host has read. If a step
answers a next state: ALPHABET, OVERFLOW_POLICY, MAX_LEN, rst and rsp_ready are unchanged; the responses delivered are
as before, or one longer by the response that was presented with rsp_ready, the block then being IDLE; the port
results are those before and, after them, the answer of every operand on the ports that has one, in order; the
operands left are exactly those without an answer. (The order in which the results of one step stand, and that an
operand without an answer is left standing, are the model's choice, log 11.) [10_state.md R14, R18, R24;
70_reset_and_hazards.md R117, R125, R129; 30_encoding.md R58; notes/assumptions/11.md] -/
def Obligations.ParametersNeverChangeAndNothingReadIsTakenBack : Prop :=
  ∀ s t : State, step s = .next t →
    t.cfg = s.cfg ∧ t.rst = s.rst ∧ t.rspReady = s.rspReady ∧
    (t.responses = s.responses ∨
      ∃ r : Response, s.hs = .respond r ∧ s.rst = false ∧ s.rspReady = true ∧ t.hs = .idle ∧
        t.responses = s.responses ++ [r]) ∧
    t.portResults = s.portResults ++ s.probes.filterMap (portAnswer s) ∧
    t.probes = s.probes.filter (fun p => (portAnswer s p).isNone)

/-- Three steps of the handshake collapse to one atomic operation: command in, response out, block IDLE again. From
IDLE with rst released and rsp_ready, a first command c within MAX_LEN whose response is r, and any operands on the
ports: three steps take exactly that command, deliver exactly r, and leave the block as it was, errors included, but
for what the ports answer beside it; with no operand they change nothing else. (That an operation is three steps, BUSY
lasting one, is the model's choice, log 7; that the oldest command goes first is log 8.) [70_reset_and_hazards.md
R125, R129; 20_memory.md R41; notes/assumptions/7.md; notes/assumptions/8.md] -/
def Obligations.AcceptComputeDeliverIsOneAtomicOperation : Prop :=
  ∀ (s : State) (c : Command) (rest : List Command) (r : Response),
    s.rst = false → s.rspReady = true → s.hs = .idle → s.cmds = c :: rest →
    accepts s.cfg c.input = true → responseTo s.cfg c = some r →
    Host.Core.run Sys2Proof.core 3 s =
      .next { servePorts s with cmds := rest, responses := s.responses ++ [r] } ∧
    (s.probes = [] → Host.Core.run Sys2Proof.core 3 s = .next { s with cmds := rest, responses := s.responses ++ [r] })

/-- A run of n commands delivers the n responses, in order, in 3n steps, and leaves the block empty. For every finite
list of commands within MAX_LEN presented to an IDLE block (rst released, rsp_ready, policy not FAULT), whatever
operands stand on the ports, 3n steps deliver exactly the n responses in order, each a function of its own command and
the parameters, failing commands among them, and the block is IDLE with nothing else changed but what the ports answer
beside it. (Three steps an operation is the model's choice, log 7; the order of presentation is log 8.)
[70_reset_and_hazards.md R128, R129; 60_exceptions.md R106, R107; notes/assumptions/7.md; notes/assumptions/8.md] -/
def Obligations.ARunAnswersEveryCommand : Prop :=
  ∀ s : State, s.rst = false → s.rspReady = true → s.hs = .idle → s.cfg.overflow ≠ .fault →
    (∀ c ∈ s.cmds, accepts s.cfg c.input = true) →
    ∃ rs : List Response, s.cmds.map (responseTo s.cfg) = rs.map some ∧
      Host.Core.run Sys2Proof.core (3 * s.cmds.length) s =
        .next { (if s.cmds.isEmpty then s else servePorts s) with cmds := [], responses := s.responses ++ rs }

/-- Exactly one response per accepted command, in the order of acceptance, whatever the host does meanwhile. For every
sequence of host moves and steps that never asserts rst, from an IDLE block: the commands presented split into those
answered, at most one in progress, and those still waiting, in order; the responses delivered are exactly the
responses to the answered ones, in order; and the handshake holds exactly the one in progress or its response. (That
commands are accepted in the order in which they are presented is the model's queue, log 8.) [70_reset_and_hazards.md
R123, R125; 20_memory.md R42; notes/assumptions/8.md] -/
def Obligations.ResponsesComeInTheOrderOfAcceptance : Prop :=
  ∀ (es : List Event) (s t : State), s.hs = .idle → s.rst = false → assertsRst es = false → runEvents es s = .next t →
    ∃ (done inflight : List Command) (rs : List Response),
      s.cmds ++ presentedCommands es = done ++ inflight ++ t.cmds ∧
      done.map (responseTo s.cfg) = rs.map some ∧ t.responses = s.responses ++ rs ∧
      ((t.hs = .idle ∧ inflight = []) ∨
        ∃ c : Command, inflight = [c] ∧
          (t.hs = .busy c ∨ ∃ r : Response, responseTo s.cfg c = some r ∧ t.hs = .respond r))

/-- A safe state has a next state and it is safe; BUSY completes whatever the host presents: the block never locks up.
From every state in which OVERFLOW_POLICY is not FAULT, every command presented or accepted is within MAX_LEN and
every operand waiting is legal, whatever the frames hold: step answers a next state, and that state is safe again.
From every state in BUSY with a command within MAX_LEN, rst released, a policy that is not FAULT, and any operands on
the ports, legal or not: step puts the handshake in RESPOND with the response to that command, and changes nothing
else but what the ports answer beside it. (That BUSY lasts exactly one step is the model's choice, log 7; R128 says
finitely many.) [70_reset_and_hazards.md R128, R129; 60_exceptions.md R107; notes/assumptions/7.md] -/
def Obligations.SafeStatesRunOnForEver : Prop :=
  (∀ s : State, Safe s → ∃ t : State, step s = .next t ∧ Safe t) ∧
  (∀ (s : State) (c : Command), s.cfg.overflow ≠ .fault → s.rst = false → s.hs = .busy c →
    accepts s.cfg c.input = true →
    ∃ r : Response, responseTo s.cfg c = some r ∧ step s = .next { servePorts s with hs := .respond r })

/-- Every step keeps the invariant: nothing illegal is ever accepted, presented or handed to the host. From every
state (not only runs from reset) whose alphabet is as R51 requires, whose BUSY command is within MAX_LEN, and whose
presented and delivered responses and port results are legal (an output frame is a text frame or a binary frame; an
octet reported invalid is a non-member; ENC32 gives no reserved code and no overflowing group; SYM gives members): if
step answers a next state, the same holds of it. [20_memory.md R28, R29, R37; 30_encoding.md R46, R51; 40_encoder.md
R67; 41_decoder.md R76; 42_laws.md R83; 60_exceptions.md R100] -/
def Obligations.EveryStepKeepsTheInvariant : Prop :=
  ∀ s t : State, Inv s → step s = .next t → Inv t

/-- The state after reset meets the invariant, is safe, and is IDLE with nothing to read and the parameters at their
defaults. After reset the handshake is IDLE (cmd_ready), no response may be read, no response or result has been
given, the alphabet is the default table, which meets R51 and R52, OVERFLOW_POLICY is WRAP_EXACT, MAX_LEN is
unbounded, and the invariant and safety hold. (That the host presents nothing and has read nothing, with rst and
rsp_ready false, is the model's choice, log 8; the default table is log 2, and the two other defaults of R8 are logs 3
and 6.) [10_state.md R24; 30_encoding.md R51, R52, R53; 00_scope.md R8; notes/assumptions/2.md;
notes/assumptions/3.md; notes/assumptions/6.md; notes/assumptions/8.md] -/
def Obligations.ResetStateMeetsTheInvariant : Prop :=
  Inv State.reset ∧ Safe State.reset ∧ State.reset.hs = .idle ∧ cmdReady State.reset = true ∧
    responsePins State.reset = none ∧ State.reset.responses = [] ∧ State.reset.portResults = [] ∧
    State.reset.cmds = [] ∧ State.reset.probes = [] ∧ State.reset.rst = false ∧ State.reset.rspReady = false ∧
    State.reset.cfg.alphabet = defaultAlphabet ∧ admissible State.reset.cfg.alphabet = true ∧
    State.reset.cfg.overflow = .wrapExact ∧ State.reset.cfg.maxLen = none

/-- The output signals: the response valid only in RESPOND, with status 0, 1 or 2 by its shape, and val_hit with its
digit. cmd_ready holds exactly in IDLE, cmd_valid exactly with a command presented, and rsp_valid exactly in RESPOND;
an Ok response shows status 0 and its frame and length; LengthError shows status 1 and no output; InvalidCharacter
shows status 2, no output, the octet and its index; status 3 is never shown. VAL's port shows val_hit = 1 and the
digit as a 7-bit number for a member, and val_hit = 0 for NONE. Fields a shape does not carry are left free. (That
cmd_ready shows in IDLE while rst is held too, although no command is accepted then, is the model's choice, log 21.)
[30_encoding.md R46, R56, R57, R58; 70_reset_and_hazards.md R125; 10_state.md R24; notes/assumptions/21.md] -/
def Obligations.ResponsePortShowsTheShapeOfTheResponse : Prop :=
  (∀ s : State, (cmdReady s = true ↔ s.hs = .idle) ∧ (cmdValid s = true ↔ s.cmds ≠ []) ∧
    (rspValid s = true ↔ ∃ r, s.hs = .respond r)) ∧
  (∀ (s : State) (out : Frame), s.hs = .respond (.ok out) →
    ∃ p, responsePins s = some p ∧ p.status = 0#2 ∧ p.out = out ∧ p.outLen = out.length) ∧
  (∀ s : State, s.hs = .respond .lengthError →
    ∃ p, responsePins s = some p ∧ p.status = 1#2 ∧ p.out = [] ∧ p.outLen = 0) ∧
  (∀ (s : State) (c : Byte) (k : Nat), s.hs = .respond (.invalidCharacter c k) →
    ∃ p, responsePins s = some p ∧ p.status = 2#2 ∧ p.out = [] ∧ p.outLen = 0 ∧ p.errChar = c ∧ p.errPos = k) ∧
  (∀ (s : State) (p : ResponsePins), responsePins s = some p → p.status ≠ 3#2) ∧
  (∀ (n : Nat) (v : Digit), (valPins n (some v)).hit = 1#1 ∧ (valPins n (some v)).v.toNat = v.val) ∧
  (∀ n : Nat, (valPins n none).hit = 0#1)

/-- No move of the host changes an accepted command, a response, a parameter or a waiting command. Whatever move the
host makes, the handshake (with the accepted frame or the presented response), the parameters, and what was delivered
are unchanged, and the commands already presented stay in front, in order. That the host has no such move is an
assumption on the host (log 17). (That rst, once set, acts only at the next step is the model's choice, log 22.)
[70_reset_and_hazards.md R121, R123; 93_implementation_defined.md U9; notes/assumptions/17.md;
notes/assumptions/22.md] -/
def Obligations.HostMovesKeepTheAcceptedFrame : Prop :=
  ∀ (m : HostMove) (s : State),
    (applyMove m s).hs = s.hs ∧ (applyMove m s).cfg = s.cfg ∧ (applyMove m s).responses = s.responses ∧
    (applyMove m s).portResults = s.portResults ∧ s.cmds <+: (applyMove m s).cmds ∧ s.probes <+: (applyMove m s).probes

/-- A step of one instance changes no other, and steps of different instances commute. If instance k makes a step, the
number of instances and every other instance are unchanged, and instances that share an alphabet go on sharing it;
steps of two different instances can be taken in either order with the same result. (That an instance that stops gives
the system no next state is the model's choice, log 15.) [10_state.md R25; 60_exceptions.md R114; 20_memory.md R42;
notes/assumptions/15.md] -/
def Obligations.InstancesDoNotInterfere : Prop :=
  (∀ (k : Nat) (sys sys' : System), stepAt k sys = .next sys' →
    sys'.length = sys.length ∧ (∀ j, j ≠ k → sys'[j]? = sys[j]?) ∧
    ∀ a : Alphabet, sharesAlphabet sys a → sharesAlphabet sys' a) ∧
  (∀ (j k : Nat) (sys one both : System), j ≠ k → stepAt j sys = .next one → stepAt k one = .next both →
    ∃ other : System, stepAt k sys = .next other ∧ stepAt j other = .next both)

/-- Working group by group, the sequencer ends with exactly the answer of the atomic operation. For every parameters
and every command, the length check, then one group at a time by index (reading IN[4g..4g+4] or IN[5g..5g+5]), then
the end: after n + 2 moves from the start, n the number of blocks of the frame, the operation is over and its answer
is that of the atomic operation, output and errors included. (That it takes n + 2 moves is the model's finer view, log
16.) [40_encoder.md R66; 41_decoder.md R74, R75, R78; 70_reset_and_hazards.md R133; 10_state.md R16, R22;
notes/assumptions/16.md] -/
def Obligations.SequencerAgreesWithTheAtomicOperation : Prop :=
  ∀ (cfg : Config) (c : Command),
    workResult (runMicro cfg c (groupCount c + 2) startWork) = some (resultOf cfg c)

/-- No phase is left backwards, and the group index rises by exactly one per group. One move inside an operation: from
NOT_VALIDATED to IN_PROGRESS, or to FAILED by LengthError exactly when the length is wrong, with g unchanged; from
IN_PROGRESS it stays with g one higher, or goes to COMPLETE exactly when g has reached n, or to FAILED with the output
discarded; COMPLETE and FAILED stay. So the rank of the phase never falls. [70_reset_and_hazards.md R133; 10_state.md
R16, R21] -/
def Obligations.PhasesNeverGoBack : Prop :=
  ∀ (cfg : Config) (c : Command) (w : Work),
    phaseRank w.phase ≤ phaseRank (micro cfg c w).phase ∧
    (w.phase = .notValidated → (micro cfg c w).g = w.g ∧
      ((micro cfg c w).phase = .inProgress ∧ c.input.length % blockSize c = 0 ∨
        (micro cfg c w).phase = .failed ∧ (micro cfg c w).raised = some .lengthError ∧ c.input.length % blockSize c ≠ 0)) ∧
    (w.phase = .inProgress →
      ((micro cfg c w).phase = .inProgress ∧ (micro cfg c w).g = w.g + 1 ∧ w.g < groupCount c) ∨
      ((micro cfg c w).phase = .complete ∧ micro cfg c w = { w with phase := .complete } ∧ groupCount c ≤ w.g) ∨
      ((micro cfg c w).phase = .failed ∧ (micro cfg c w).out = [] ∧ (micro cfg c w).g = w.g ∧ w.g < groupCount c)) ∧
    (w.phase = .complete ∨ w.phase = .failed → micro cfg c w = w)
end

