-- ==== Sys2Proof/Laws/Codec.lean ====
section
/-! SUPPORT. The small laws of the codec's data operations: one per definition, so that later proofs do not unfold it. -/

namespace Sys2Proof.Machine

@[simp] theorem quotient_toNat (q : Word) : (quotient q).toNat = q.toNat / 85 := by
  simp [quotient]

@[simp] theorem remainder_val (q : Word) : (remainder q).val = q.toNat % 85 := rfl

@[simp] theorem digitWord_toNat (v : Digit) : (digitWord v).toNat = v.val := by
  have := v.isLt
  simp only [digitWord, BitVec.toNat_ofNat]
  omega

theorem foldDigit_toNat (acc : Word) (v : Digit) :
    (foldDigit acc v).toNat = (acc.toNat + v.val) * 85 % 2 ^ 32 := by
  simp only [foldDigit, BitVec.toNat_mul, BitVec.toNat_add, digitWord_toNat, BitVec.toNat_ofNat]
  omega

theorem be32_toNat (b : Block) :
    (be32 b).toNat = b.b0.toNat * 2 ^ 24 + b.b1.toNat * 2 ^ 16 + b.b2.toNat * 2 ^ 8 + b.b3.toNat := by
  have h0 := b.b0.isLt
  have h1 := b.b1.isLt
  have h2 := b.b2.isLt
  have h3 := b.b3.isLt
  simp only [be32, BitVec.toNat_ofNat]
  omega

/-- The byte split and the big-endian read undo each other (R10). -/
@[simp] theorem be32_bytesBe (w : Word) : be32 (bytesBe w) = w := by
  apply BitVec.eq_of_toNat_eq
  rw [be32_toNat]
  have := w.isLt
  simp only [bytesBe, BitVec.extractLsb'_toNat, Nat.shiftRight_eq_div_pow]
  omega

@[simp] theorem bytesBe_be32 (b : Block) : bytesBe (be32 b) = b := by
  have h0 := b.b0.isLt
  have h1 := b.b1.isLt
  have h2 := b.b2.isLt
  have h3 := b.b3.isLt
  have h := be32_toNat b
  obtain ⟨b0, b1, b2, b3⟩ := b
  simp only [bytesBe, Block.mk.injEq]
  refine ⟨?_, ?_, ?_, ?_⟩ <;> apply BitVec.eq_of_toNat_eq <;>
    simp only [BitVec.extractLsb'_toNat, Nat.shiftRight_eq_div_pow, h] at * <;> omega

@[simp] theorem textFrame_length (t : TextGroup) : (textFrame t).length = 5 := rfl
@[simp] theorem blockFrame_length (b : Block) : (blockFrame b).length = 4 := rfl

@[simp] theorem blocksOf_nil : blocksOf [] = [] := rfl
@[simp] theorem groupsOf_nil : groupsOf [] = [] := rfl

@[simp] theorem blocksOf_append (b : Block) (f : Frame) : blocksOf (blockFrame b ++ f) = b :: blocksOf f := rfl
@[simp] theorem groupsOf_append (t : TextGroup) (f : Frame) : groupsOf (textFrame t ++ f) = t :: groupsOf f := rfl

/-- An aligned frame is its blocks, concatenated. -/
theorem flatMap_blocksOf (f : Frame) (h : f.length % 4 = 0) : (blocksOf f).flatMap blockFrame = f := by
  induction f using blocksOf.induct with
  | case1 b0 b1 b2 b3 rest ih =>
    have : rest.length % 4 = 0 := by simp only [List.length_cons] at h; omega
    simp [blocksOf, blockFrame, ih this]
  | case2 f hf =>
    match f, hf with
    | [], _ => rfl
    | [_], _ => simp at h
    | [_, _], _ => simp at h
    | [_, _, _], _ => simp at h
    | _ :: _ :: _ :: _ :: _, hf => exact absurd rfl (hf _ _ _ _ _)

/-- A frame of whole groups is its groups, concatenated. -/
theorem flatMap_groupsOf (f : Frame) (h : f.length % 5 = 0) : (groupsOf f).flatMap textFrame = f := by
  induction f using groupsOf.induct with
  | case1 c0 c1 c2 c3 c4 rest ih =>
    have : rest.length % 5 = 0 := by simp only [List.length_cons] at h; omega
    simp [groupsOf, textFrame, ih this]
  | case2 f hf =>
    match f, hf with
    | [], _ => rfl
    | [_], _ => simp at h
    | [_, _], _ => simp at h
    | [_, _, _], _ => simp at h
    | [_, _, _, _], _ => simp at h
    | _ :: _ :: _ :: _ :: _ :: _, hf => exact absurd rfl (hf _ _ _ _ _ _)

/-- `findFrom` finds an index at which the character stands. -/
theorem findFrom_sound {c : Byte} {i k : Nat} {l : List Byte} (h : findFrom c i l = some k) :
    i ≤ k ∧ l[k - i]? = some c := by
  induction l generalizing i with
  | nil => cases h
  | cons x xs ih =>
    simp only [findFrom] at h
    split at h
    · cases h; simp [*]
    · obtain ⟨h1, h2⟩ := ih h
      refine ⟨by omega, ?_⟩
      rw [show k - i = (k - (i + 1)) + 1 by omega]
      simpa using h2

/-- `findFrom` fails only on a character that stands nowhere. -/
theorem findFrom_none {c : Byte} {i : Nat} {l : List Byte} : findFrom c i l = none ↔ c ∉ l := by
  induction l generalizing i with
  | nil => simp [findFrom]
  | cons x xs ih =>
    simp only [findFrom]
    split
    · simp_all
    · have : c ≠ x := fun h => ‹¬ x = c› h.symm
      simp [ih, this]

theorem isDigitCode_iff (v : BitVec 7) : isDigitCode v = true ↔ v.toNat < 85 := by
  simp [isDigitCode]

theorem fieldDigit_of_lt {v : BitVec 7} (h : v.toNat < 85) : fieldDigit v = some ⟨v.toNat, h⟩ := by
  simp [fieldDigit, h]

theorem fieldDigit_none {v : BitVec 7} : fieldDigit v = none ↔ 85 ≤ v.toNat := by
  simp [fieldDigit]

@[simp] theorem fieldDigit_digitField (v : Digit) : fieldDigit (digitField v) = some v := by
  have := v.isLt
  have h : (digitField v).toNat = v.val := by
    simp only [digitField, BitVec.toNat_ofNat]
    omega
  rw [fieldDigit_of_lt (by omega)]
  exact congrArg some (Fin.ext h)

/-- Concatenation of bit vectors as arithmetic: the left one in the more significant position (R9). -/
theorem toNat_append_eq {m n : Nat} (x : BitVec m) (y : BitVec n) : (x ++ y).toNat = x.toNat * 2 ^ n + y.toNat := by
  rw [BitVec.toNat_append, ← Nat.shiftLeft_add_eq_or_of_lt y.isLt, Nat.shiftLeft_eq]

/-- The packed group word, field by field (R47). -/
theorem packFields_toNat (d0 d1 d2 d3 d4 : BitVec 7) : (packFields d0 d1 d2 d3 d4).toNat =
    d0.toNat * 2 ^ 28 + d1.toNat * 2 ^ 21 + d2.toNat * 2 ^ 14 + d3.toNat * 2 ^ 7 + d4.toNat := by
  simp only [packFields, toNat_append_eq]
  omega

/-- The five fields of a group word are the fields it was packed from (R47). -/
theorem unpackFields_packFields (d0 d1 d2 d3 d4 : BitVec 7) :
    unpackFields (packFields d0 d1 d2 d3 d4) = .dec5 d0 d1 d2 d3 d4 := by
  have h0 := d0.isLt
  have h1 := d1.isLt
  have h2 := d2.isLt
  have h3 := d3.isLt
  have h4 := d4.isLt
  have h := packFields_toNat d0 d1 d2 d3 d4
  simp only [unpackFields, Instr.dec5.injEq]
  refine ⟨?_, ?_, ?_, ?_, ?_⟩ <;> apply BitVec.eq_of_toNat_eq <;>
    simp only [BitVec.extractLsb'_toNat, Nat.shiftRight_eq_div_pow, h] <;> omega

end Sys2Proof.Machine
end

