-- ==== Sys2Proof/Laws/Frames.lean ====
section
/-! SUPPORT. Frames as sequences of blocks and groups: lengths, and what an indexed read gives. -/

namespace Sys2Proof.Machine

theorem blocksOf_length (f : Frame) : (blocksOf f).length = f.length / 4 := by
  induction f using blocksOf.induct with
  | case1 b0 b1 b2 b3 rest ih => simp only [blocksOf, List.length_cons, ih]; omega
  | case2 f hf =>
    match f, hf with
    | [], _ | [_], _ | [_, _], _ | [_, _, _], _ => simp [blocksOf]
    | _ :: _ :: _ :: _ :: _, hf => exact absurd rfl (hf _ _ _ _ _)

theorem groupsOf_length (f : Frame) : (groupsOf f).length = f.length / 5 := by
  induction f using groupsOf.induct with
  | case1 c0 c1 c2 c3 c4 rest ih => simp only [groupsOf, List.length_cons, ih]; omega
  | case2 f hf =>
    match f, hf with
    | [], _ | [_], _ | [_, _], _ | [_, _, _], _ | [_, _, _, _], _ => simp [groupsOf]
    | _ :: _ :: _ :: _ :: _ :: _, hf => exact absurd rfl (hf _ _ _ _ _ _)

/-- Pieces of one length, concatenated. -/
theorem flatMap_length_of_pieces {α : Type} (l : List α) (h : α → Frame) (n : Nat) (hn : ∀ x, (h x).length = n) :
    (l.flatMap h).length = n * l.length := by
  induction l with
  | nil => rfl
  | cons x xs ih => simp [hn, ih, Nat.mul_add, Nat.add_comm]

/-- Reading piece `g` of a concatenation of pieces of length `n` gives piece `g`, or nothing past the end. -/
theorem memRead_flatMap {α : Type} (l : List α) (h : α → Frame) (n : Nat) (hn : ∀ x, (h x).length = n) (g : Nat) :
    memRead (l.flatMap h) (n * g) n = (l[g]?).elim [] h := by
  unfold memRead
  induction l generalizing g with
  | nil => simp
  | cons x xs ih =>
    cases g with
    | zero => simp [hn]
    | succ g =>
      simp only [List.flatMap_cons, List.getElem?_cons_succ, ← ih]
      rw [List.drop_append]
      simp [hn, Nat.mul_add, List.drop_eq_nil_of_le]

theorem memRead_blocksOf (f : Frame) (h : f.length % 4 = 0) (g : Nat) :
    memRead f (4 * g) 4 = ((blocksOf f)[g]?).elim [] blockFrame := by
  conv_lhs => rw [← flatMap_blocksOf f h]
  exact memRead_flatMap (blocksOf f) blockFrame 4 (fun _ => rfl) g

theorem memRead_groupsOf (f : Frame) (h : f.length % 5 = 0) (g : Nat) :
    memRead f (5 * g) 5 = ((groupsOf f)[g]?).elim [] textFrame := by
  conv_lhs => rw [← flatMap_groupsOf f h]
  exact memRead_flatMap (groupsOf f) textFrame 5 (fun _ => rfl) g

/-- One octet of a frame, through the read of its block. -/
theorem getElem?_memRead {f : Frame} {n g i : Nat} (hi : i < n) : f[n * g + i]? = (memRead f (n * g) n)[i]? := by
  simp [memRead, hi]

theorem blockFrame_injective {a b : Block} (h : blockFrame a = blockFrame b) : a = b := by
  cases a; cases b; simpa [blockFrame] using h

theorem textFrame_injective {a b : TextGroup} (h : textFrame a = textFrame b) : a = b := by
  cases a; cases b; simpa [textFrame] using h

theorem wordAt_of_block {f : Frame} {g : Nat} {b : Block} (h : memRead f (4 * g) 4 = blockFrame b) :
    wordAt f g = (be32 b).toNat := by
  rw [wordAt, h, be32_toNat]
  simp only [blockFrame, List.foldl_cons, List.foldl_nil]
  omega

/-- ENCODE, as one function of an aligned frame. -/
theorem encodeFrame_of_aligned {cfg : Config} {f : Frame} (h : f.length % 4 = 0) :
    encodeFrame cfg f = .ok ((blocksOf f).flatMap (fun b => textFrame (encBlk cfg.alphabet b))) := by
  rw [encodeFrame, if_pos h]

/-- When ENCODE gives a frame. -/
theorem encodeFrame_ok {cfg : Config} {f out : Frame} (h : encodeFrame cfg f = .ok out) :
    f.length % 4 = 0 ∧ out = (blocksOf f).flatMap (fun b => textFrame (encBlk cfg.alphabet b)) := by
  unfold encodeFrame at h
  split at h
  · exact ⟨‹_›, (Except.ok.inj h).symm⟩
  · cases h

/-- When the group loop of DECODE gives a frame. -/
theorem decodeGroups_cons_ok {cfg : Config} {t : TextGroup} {ts : List TextGroup} {base : Nat} {out : Frame}
    (h : decodeGroups cfg (t :: ts) base = .ok out) :
    ∃ b rest, decGrp cfg t base = .ok b ∧ decodeGroups cfg ts (base + 5) = .ok rest ∧ out = blockFrame b ++ rest := by
  simp only [decodeGroups] at h
  cases hb : decGrp cfg t base with
  | error e => rw [hb] at h; cases h
  | ok b =>
    cases hr : decodeGroups cfg ts (base + 5) with
    | error e => rw [hb, hr] at h; cases h
    | ok rest =>
      rw [hb, hr] at h
      exact ⟨b, rest, rfl, rfl, (Except.ok.inj h).symm⟩

/-- When DECODE gives a frame. -/
theorem decodeFrame_ok {cfg : Config} {f out : Frame} (h : decodeFrame cfg f = .ok out) :
    f.length % 5 = 0 ∧ decodeGroups cfg (groupsOf f) 0 = .ok out := by
  unfold decodeFrame at h
  split at h
  · exact ⟨‹_›, h⟩
  · cases h

/-- Group loop of DECODE, when every group decodes: the blocks, concatenated. -/
theorem decodeGroups_of_all {cfg : Config} {ts : List TextGroup} {base : Nat} {f : TextGroup → Block}
    (h : ∀ t ∈ ts, ∀ p, decGrp cfg t p = .ok (f t)) : decodeGroups cfg ts base = .ok (ts.flatMap (fun t => blockFrame (f t))) := by
  induction ts generalizing base with
  | nil => rfl
  | cons t ts ih =>
    simp only [decodeGroups, h t (by simp), ih (fun u hu => h u (by simp [hu]))]
    rfl

/-- DECGRP, through the digits of the group. -/
theorem decGrp_of_digits {cfg : Config} {t : TextGroup} {d : Group} (h : digitsOf cfg.alphabet t = some d) (base : Nat) :
    decGrp cfg t base = (dec5Under cfg.overflow d).map bytesBe := by
  unfold digitsOf at h
  split at h
  · cases h
    simp only [decGrp, groupDigits, digitAt, *]
    rename_i d0 d1 d2 d3 d4 _ _ _ _ _
    cases hd : dec5Under cfg.overflow ⟨d0, d1, d2, d3, d4⟩ <;> simp [bind, Except.bind, pure, Except.pure, Except.map, hd]
  · cases h

end Sys2Proof.Machine
end

