-- ==== Sys2Proof/Laws/Decode.lean ====
section
/-! SUPPORT. What the parts of DECODE can do, for the proofs about it. -/

namespace Sys2Proof.Machine

/-- A digit field holds its digit. -/
theorem digitField_toNat (v : Digit) : (digitField v).toNat = v.val := by
  have := v.isLt
  simp only [digitField, BitVec.toNat_ofNat]; omega

/-- Every entry of the forward view is a member. -/
theorem valOf_isSome (a : Alphabet) (v : Digit) : isMember a (symOf a v) = true := by
  unfold isMember valOf
  cases hf : findFrom (symOf a v) 0 a.toList with
  | none =>
    have := findFrom_none.1 hf
    exact absurd (by simp [symOf, Vector.get]) this
  | some i =>
    obtain ⟨-, hk⟩ := findFrom_sound hf
    simp only [Nat.sub_zero] at hk
    have hl : i < 85 := by
      have := (List.getElem?_eq_some_iff.1 hk).1
      simpa using this
    simp [hl]

/-- The forward view at the digit of a character is the character. -/
theorem symOf_valOf {a : Alphabet} {c : Byte} {v : Digit} (h : valOf a c = some v) : symOf a v = c := by
  unfold valOf at h
  split at h
  · cases h
  · rename_i i hi
    obtain ⟨-, hk⟩ := findFrom_sound hi
    split at h
    · cases h
      simp only [Nat.sub_zero, Vector.getElem?_toList] at hk
      exact (Vector.getElem?_eq_some_iff.1 hk).2
    · cases h

/-- The policy plays no part in a group that does not overflow. -/
theorem dec5Under_ok {p : OverflowPolicy} {d : Group} (h : p = .wrapExact ∨ valueOf d < 2 ^ 32) :
    dec5Under p d = .ok (dec5 d) := by
  unfold dec5Under overflows
  rcases h with rfl | h
  · split <;> rfl
  · rw [if_neg]; simpa using h

/-- All that DEC5 under a policy can do. -/
theorem dec5Under_cases (p : OverflowPolicy) (d : Group) :
    (∃ w, dec5Under p d = .ok w) ∨ (dec5Under p d = .error .overflow ∧ p = .fault ∧ 2 ^ 32 ≤ valueOf d) := by
  unfold dec5Under overflows
  by_cases h : 2 ^ 32 ≤ valueOf d
  · rw [if_pos (by simpa using h)]
    cases p
    · exact .inl ⟨_, rfl⟩
    · exact .inl ⟨_, rfl⟩
    · exact .inr ⟨rfl, rfl, h⟩
  · rw [if_neg (by simpa using h)]
    exact .inl ⟨_, rfl⟩

/-- All that the membership test of one character can do. -/
theorem digitAt_cases (a : Alphabet) (c : Byte) (p : Nat) :
    (∃ v, valOf a c = some v ∧ digitAt a c p = .ok v) ∨ (valOf a c = none ∧
      digitAt a c p = .error (.invalidCharacter c p)) := by
  unfold digitAt
  cases valOf a c <;> simp

/-- The only error of a group is a non-member. -/
theorem groupDigits_error {a : Alphabet} {t : TextGroup} {p : Nat} {e : Raise} (h : groupDigits a t p = .error e) :
    ∃ c k, e = .invalidCharacter c k := by
  unfold groupDigits at h
  rcases digitAt_cases a t.c0 p with ⟨_, _, h0⟩ | ⟨_, h0⟩ <;> simp only [h0, bind, Except.bind] at h
  · rcases digitAt_cases a t.c1 (p+1) with ⟨_, _, h0⟩ | ⟨_, h0⟩ <;> simp only [h0] at h
    · rcases digitAt_cases a t.c2 (p+2) with ⟨_, _, h0⟩ | ⟨_, h0⟩ <;> simp only [h0] at h
      · rcases digitAt_cases a t.c3 (p+3) with ⟨_, _, h0⟩ | ⟨_, h0⟩ <;> simp only [h0] at h
        · rcases digitAt_cases a t.c4 (p+4) with ⟨_, _, h0⟩ | ⟨_, h0⟩ <;> simp only [h0] at h
          · cases h
          · exact ⟨_, _, (Except.error.inj h).symm⟩
        · exact ⟨_, _, (Except.error.inj h).symm⟩
      · exact ⟨_, _, (Except.error.inj h).symm⟩
    · exact ⟨_, _, (Except.error.inj h).symm⟩
  · exact ⟨_, _, (Except.error.inj h).symm⟩

theorem decGrp_error {cfg : Config} {t : TextGroup} {p : Nat} {e : Raise} (h : decGrp cfg t p = .error e) :
    e ≠ .lengthError := by
  unfold decGrp at h
  cases hd : groupDigits cfg.alphabet t p with
  | error e' =>
    obtain ⟨c, k, rfl⟩ := groupDigits_error hd
    simp only [hd, bind, Except.bind] at h
    rw [← Except.error.inj h]; simp
  | ok d =>
    simp only [hd, bind, Except.bind] at h
    rcases dec5Under_cases cfg.overflow d with ⟨w, hw⟩ | ⟨hw, _⟩ <;> simp only [hw] at h
    · cases h
    · rw [← Except.error.inj h]; simp

/-- The group loop never raises a length error. -/
theorem decodeGroups_error {cfg : Config} {ts : List TextGroup} {p : Nat} {e : Raise}
    (h : decodeGroups cfg ts p = .error e) :
    e ≠ .lengthError := by
  induction ts generalizing p e with
  | nil => cases h
  | cons t ts ih =>
    simp only [decodeGroups, bind, Except.bind] at h
    cases hb : decGrp cfg t p with
    | error e' => simp only [hb] at h; rw [← Except.error.inj h]; exact decGrp_error hb
    | ok b =>
      simp only [hb] at h
      cases hr : decodeGroups cfg ts (p+5) with
      | error e' => simp only [hr] at h; rw [← Except.error.inj h]; exact ih hr
      | ok r => simp only [hr] at h; cases h

/-- Two ways to say which digits a group of a frame holds. -/
theorem holdsGroup_iff_digitsOf {a : Alphabet} {f : Frame} {g : Nat} {d : Group} {t : TextGroup}
    (hm : f.length % 5 = 0) (hg : (groupsOf f)[g]? = some t) :
    holdsGroup a f g d ↔ digitsOf a t = some d := by
  rw [holdsGroup, memRead_groupsOf _ hm, hg]
  simp only [Option.elim, textFrame, List.map_cons, List.map_nil, List.cons.injEq, and_true]
  obtain ⟨d0, d1, d2, d3, d4⟩ := d
  unfold digitsOf
  constructor
  · rintro ⟨h0, h1, h2, h3, h4⟩
    simp [h0, h1, h2, h3, h4]
  · intro h
    split at h
    · simp_all
    · cases h

theorem mem_of_mem_groupsOf {f : Frame} (hm : f.length % 5 = 0) {t : TextGroup} (ht : t ∈ groupsOf f) :
    ∀ c ∈ textFrame t, c ∈ f := by
  intro c hc
  rw [← flatMap_groupsOf f hm]
  exact List.mem_flatMap.2 ⟨t, ht, hc⟩

/-- A text group of members has digits. -/
theorem digitsOf_of_members {a : Alphabet} {t : TextGroup} (h : ∀ c ∈ textFrame t, isMember a c = true) :
    ∃ d, digitsOf a t = some d := by
  simp only [textFrame, List.forall_mem_cons, isMember, Option.isSome_iff_exists, List.not_mem_nil,
      false_imp_iff, implies_true, and_true] at h
  obtain ⟨⟨_, h0⟩, ⟨_, h1⟩, ⟨_, h2⟩, ⟨_, h3⟩, ⟨_, h4⟩⟩ := h
  exact ⟨_, by simp [digitsOf, h0, h1, h2, h3, h4]; rfl⟩

theorem isTextFrame_iff {a : Alphabet} {f : Frame} :
    isTextFrame a f = true ↔ f.length % 5 = 0 ∧ ∀ c ∈ f, isMember a c = true := by
  simp [isTextFrame]

/-- DECODE of a text frame none of whose groups ends it: the length and every block of the output. -/
theorem decodeFrame_of_text {cfg : Config} {f : Frame} (ht : isTextFrame cfg.alphabet f = true)
   (hp : ∀ g, g < f.length / 5 → ∀ d, holdsGroup cfg.alphabet f g d → ∃ w, dec5Under cfg.overflow d = .ok w) :
   ∃ out, decodeFrame cfg f = .ok out ∧ out.length * 5 = f.length * 4 ∧ ∀ g, g < f.length / 5 → ∀ d,
      holdsGroup cfg.alphabet f g d → ∃ w : Word, dec5Under cfg.overflow d = .ok w ∧ wordAt out g = w.toNat ∧
      memRead out (4 * g) 4 = blockFrame (bytesBe w) := by
  obtain ⟨hm, hmem⟩ := isTextFrame_iff.1 ht
  have hd : ∀ t ∈ groupsOf f, ∃ b, ∀ p, decGrp cfg t p = .ok b := by
    intro t htm
    obtain ⟨d, hd⟩ := digitsOf_of_members (fun c hc => hmem c (mem_of_mem_groupsOf hm htm c hc))
    obtain ⟨g, hgl, hg⟩ := List.getElem_of_mem htm
    have hg' : (groupsOf f)[g]? = some t := by simp [hgl, hg]
    obtain ⟨w, hw⟩ := hp g (by rw [← groupsOf_length]; exact hgl) d ((holdsGroup_iff_digitsOf hm hg').2 hd)
    exact ⟨bytesBe w, fun p => by rw [decGrp_of_digits hd, hw]; rfl⟩
  let F : TextGroup → Block := fun t => match decGrp cfg t 0 with | .ok b => b | .error _ => ⟨0, 0, 0, 0⟩
  have hF : ∀ t ∈ groupsOf f, ∀ p, decGrp cfg t p = .ok (F t) := by
    intro t ht p
    obtain ⟨b, hb⟩ := hd t ht
    simp only [F, hb]
  refine ⟨_, by rw [decodeFrame, if_pos hm, decodeGroups_of_all hF], ?_, ?_⟩
  · rw [flatMap_length_of_pieces _ _ 4 (fun _ => rfl), groupsOf_length]; omega
  · intro g hg d hold
    rw [← groupsOf_length] at hg
    have hg' : (groupsOf f)[g]? = some (groupsOf f)[g] := by simp
    have hdig := (holdsGroup_iff_digitsOf hm hg').1 hold
    obtain ⟨w, hw⟩ := hp g (by rw [← groupsOf_length]; exact hg) d hold
    have hb : F (groupsOf f)[g] = bytesBe w := by
      have := hF _ (List.getElem_mem hg) 0
      rw [decGrp_of_digits hdig, hw] at this
      exact (Except.ok.inj this).symm
    have hr : memRead ((groupsOf f).flatMap (fun t => blockFrame (F t))) (4 * g) 4 = blockFrame (bytesBe w) := by
      rw [memRead_flatMap _ _ 4 (fun _ => rfl), hg']
      simp only [Option.elim, hb]
    exact ⟨w, hw, by rw [wordAt_of_block hr, be32_bytesBe], hr⟩

/-- The characters of group `g` by frame index. -/
theorem groupsOf_chars {f : Frame} (hm : f.length % 5 = 0) {g : Nat} {t : TextGroup}
      (hg : (groupsOf f)[g]? = some t) :
   f[5*g]? = some t.c0 ∧ f[5*g+1]? = some t.c1 ∧ f[5*g+2]? = some t.c2 ∧ f[5*g+3]? = some t.c3 ∧
      f[5*g+4]? = some t.c4 := by
  have h := memRead_groupsOf f hm g
  rw [hg] at h
  have h0 := @getElem?_memRead f 5 g 0 (by omega)
  have h1 := @getElem?_memRead f 5 g 1 (by omega)
  have h2 := @getElem?_memRead f 5 g 2 (by omega)
  have h3 := @getElem?_memRead f 5 g 3 (by omega)
  have h4 := @getElem?_memRead f 5 g 4 (by omega)
  rw [h] at h0 h1 h2 h3 h4
  exact ⟨h0, h1, h2, h3, h4⟩

end Sys2Proof.Machine
end

