-- ==== Sys2Proof/Laws/State.lean ====
section
/-! SUPPORT. One lemma per field per update of State, so that no proof unfolds a record update. -/

namespace Sys2Proof.Machine

@[simp] theorem present_cfg (r : Response) (s : State) : (present r s).cfg = s.cfg := rfl
@[simp] theorem present_hs (r : Response) (s : State) : (present r s).hs = .respond r := rfl
@[simp] theorem present_rst (r : Response) (s : State) : (present r s).rst = s.rst := rfl
@[simp] theorem present_rspReady (r : Response) (s : State) : (present r s).rspReady = s.rspReady := rfl
@[simp] theorem present_cmds (r : Response) (s : State) : (present r s).cmds = s.cmds := rfl
@[simp] theorem present_probes (r : Response) (s : State) : (present r s).probes = s.probes := rfl
@[simp] theorem present_responses (r : Response) (s : State) : (present r s).responses = s.responses := rfl
@[simp] theorem present_portResults (r : Response) (s : State) : (present r s).portResults = s.portResults := rfl

@[simp] theorem deliver_cfg (r : Response) (s : State) : (deliver r s).cfg = s.cfg := rfl
@[simp] theorem deliver_hs (r : Response) (s : State) : (deliver r s).hs = .idle := rfl
@[simp] theorem deliver_rst (r : Response) (s : State) : (deliver r s).rst = s.rst := rfl
@[simp] theorem deliver_rspReady (r : Response) (s : State) : (deliver r s).rspReady = s.rspReady := rfl
@[simp] theorem deliver_cmds (r : Response) (s : State) : (deliver r s).cmds = s.cmds := rfl
@[simp] theorem deliver_probes (r : Response) (s : State) : (deliver r s).probes = s.probes := rfl
@[simp] theorem deliver_responses (r : Response) (s : State) : (deliver r s).responses = s.responses ++ [r] := rfl
@[simp] theorem deliver_portResults (r : Response) (s : State) : (deliver r s).portResults = s.portResults := rfl

@[simp] theorem reply_cfg (r : PortResult) (s : State) : (reply r s).cfg = s.cfg := rfl
@[simp] theorem reply_hs (r : PortResult) (s : State) : (reply r s).hs = s.hs := rfl
@[simp] theorem reply_rst (r : PortResult) (s : State) : (reply r s).rst = s.rst := rfl
@[simp] theorem reply_rspReady (r : PortResult) (s : State) : (reply r s).rspReady = s.rspReady := rfl
@[simp] theorem reply_cmds (r : PortResult) (s : State) : (reply r s).cmds = s.cmds := rfl
@[simp] theorem reply_probes (r : PortResult) (s : State) : (reply r s).probes = s.probes := rfl
@[simp] theorem reply_responses (r : PortResult) (s : State) : (reply r s).responses = s.responses := rfl
@[simp] theorem reply_portResults (r : PortResult) (s : State) :
    (reply r s).portResults = s.portResults ++ [r] := rfl

@[simp] theorem accept_cfg (c : Command) (l : List Command) (s : State) : (accept c l s).cfg = s.cfg := rfl
@[simp] theorem accept_hs (c : Command) (l : List Command) (s : State) : (accept c l s).hs = .busy c := rfl
@[simp] theorem accept_rst (c : Command) (l : List Command) (s : State) : (accept c l s).rst = s.rst := rfl
@[simp] theorem accept_rspReady (c : Command) (l : List Command) (s : State) :
    (accept c l s).rspReady = s.rspReady := rfl
@[simp] theorem accept_cmds (c : Command) (l : List Command) (s : State) : (accept c l s).cmds = l := rfl
@[simp] theorem accept_probes (c : Command) (l : List Command) (s : State) : (accept c l s).probes = s.probes := rfl
@[simp] theorem accept_responses (c : Command) (l : List Command) (s : State) :
    (accept c l s).responses = s.responses := rfl
@[simp] theorem accept_portResults (c : Command) (l : List Command) (s : State) :
    (accept c l s).portResults = s.portResults := rfl

@[simp] theorem applyReset_cfg (s : State) : (applyReset s).cfg = s.cfg := rfl
@[simp] theorem applyReset_hs (s : State) : (applyReset s).hs = .idle := rfl
@[simp] theorem applyReset_rst (s : State) : (applyReset s).rst = s.rst := rfl
@[simp] theorem applyReset_rspReady (s : State) : (applyReset s).rspReady = s.rspReady := rfl
@[simp] theorem applyReset_cmds (s : State) : (applyReset s).cmds = s.cmds := rfl
@[simp] theorem applyReset_probes (s : State) : (applyReset s).probes = s.probes := rfl
@[simp] theorem applyReset_responses (s : State) : (applyReset s).responses = s.responses := rfl
@[simp] theorem applyReset_portResults (s : State) : (applyReset s).portResults = s.portResults := rfl

end Sys2Proof.Machine
end

