-- ==== Sys2Proof/Laws/Ops.lean ====
section
/-! SUPPORT. For each shared operation on State, once, everything it can do. -/

namespace Sys2Proof.Machine

/-- A decidable choice of outcome that answers a next state. -/
theorem ite_refused_next {p : Prop} [Decidable p] {o : Host.Outcome State Fault Refusal} {r : Refusal} {t : State}
    (h : (if p then o else .refused r) = .next t) : p ∧ o = .next t := by
  split at h
  · exact ⟨‹_›, h⟩
  · cases h

/-- Raising an error answers the matching response, and a fault only for an overflow. -/
theorem raiseError_next {e : Raise} {s t : State} (h : raiseError e s = .next t) :
    (e = .lengthError ∧ t = present .lengthError s) ∨
      ∃ c p, e = .invalidCharacter c p ∧ t = present (.invalidCharacter c p) s := by
  cases e with
  | lengthError => cases h; exact .inl ⟨rfl, rfl⟩
  | invalidCharacter c p => cases h; exact .inr ⟨c, p, rfl, rfl⟩
  | overflow => cases h

/-- The end of a frame operation presents a response and does nothing else. -/
theorem answer_next {r : Except Raise Frame} {s t : State} (h : answer r s = .next t) :
    (∃ out, r = .ok out ∧ t = present (.ok out) s) ∨ (r = .error .lengthError ∧ t = present .lengthError s) ∨
      ∃ c p, r = .error (.invalidCharacter c p) ∧ t = present (.invalidCharacter c p) s := by
  cases r with
  | ok out => cases h; exact .inl ⟨out, rfl, rfl⟩
  | error e =>
    rcases raiseError_next h with ⟨rfl, rfl⟩ | ⟨c, p, rfl, rfl⟩
    · exact .inr (.inl ⟨rfl, rfl⟩)
    · exact .inr (.inr ⟨c, p, rfl, rfl⟩)

/-- The two frame operations, through the command that names them. -/
theorem exec_decodeCommand (c : Command) (s : State) :
    exec (decodeCommand c) s = if accepts s.cfg c.input then answer (resultOf s.cfg c) s else .refused .frameTooLong := by
  obtain ⟨op, input⟩ := c
  by_cases h : op = 0#1 <;> simp [decodeCommand, resultOf, exec, execEncode, execDecode, h]

/-- A frame operation answers its command's response. -/
theorem exec_decodeCommand_next {c : Command} {s t : State} (h : exec (decodeCommand c) s = .next t) :
    accepts s.cfg c.input = true ∧ ∃ r, responseTo s.cfg c = some r ∧ t = present r s := by
  rw [exec_decodeCommand] at h
  obtain ⟨ha, h⟩ := ite_refused_next h
  refine ⟨ha, ?_⟩
  rcases answer_next h with ⟨out, hr, rfl⟩ | ⟨hr, rfl⟩ | ⟨ch, p, hr, rfl⟩
  · exact ⟨_, by simp [responseTo, hr], rfl⟩
  · exact ⟨_, by simp [responseTo, hr], rfl⟩
  · exact ⟨_, by simp [responseTo, hr], rfl⟩

/-- A command with a response runs to it. -/
theorem exec_decodeCommand_of_response {c : Command} {s : State} {r : Response}
    (ha : accepts s.cfg c.input = true) (hr : responseTo s.cfg c = some r) :
    exec (decodeCommand c) s = .next (present r s) := by
  rw [exec_decodeCommand, if_pos ha]
  unfold responseTo at hr
  split at hr <;> simp_all [answer, raiseError]

/-- DEC5 stops only by the overflow error, under FAULT. -/
theorem dec5Under_error {p : OverflowPolicy} {d : Group} {e : Raise} (h : dec5Under p d = .error e) : e = .overflow := by
  unfold dec5Under at h
  generalize overflows d = b at h
  cases b <;> cases p <;> simp_all

/-- DEC5's port answers a word and does nothing else. -/
theorem execDec5_next {d0 d1 d2 d3 d4 : BitVec 7} {s t : State} (h : execDec5 d0 d1 d2 d3 d4 s = .next t) :
    ∃ d w, fieldsGroup d0 d1 d2 d3 d4 = some d ∧ dec5Under s.cfg.overflow d = .ok w ∧ t = reply (.decW w) s := by
  unfold execDec5 at h
  cases hd : fieldsGroup d0 d1 d2 d3 d4 with
  | none => simp only [hd] at h; nomatch h
  | some d =>
    cases hu : dec5Under s.cfg.overflow d with
    | ok w =>
      simp only [hd, hu] at h
      exact ⟨d, w, rfl, hu, (Host.Outcome.next.inj h).symm⟩
    | error e =>
      simp only [hd, hu, dec5Under_error hu, raiseError] at h
      nomatch h

/-- A port's operation answers one result on its own port. -/
theorem exec_decodePort_next {p : PortWord} {i : Instr} {s t : State} (hp : decodePort p = .ok i)
    (h : exec i s = .next t) : ∃ r, t = reply r s := by
  cases p with
  | encW w => cases hp; cases h; exact ⟨_, rfl⟩
  | decD d =>
    simp only [decodePort] at hp
    split at hp
    · cases hp
      obtain ⟨_, w, _, _, rfl⟩ := execDec5_next h
      exact ⟨_, rfl⟩
    · cases hp
  | symV v =>
    simp only [decodePort] at hp
    split at hp
    · cases hp
      simp only [exec, execSym] at h
      split at h
      · cases h
      · cases h; exact ⟨_, rfl⟩
    · cases hp
  | valC c => cases hp; cases h; exact ⟨_, rfl⟩

/-- All that a port's operation can do, which the parameters alone decide: one result on its own port, or a fault. -/
theorem exec_decodePort_cases {p : PortWord} {i : Instr} (hp : decodePort p = .ok i) (cfg : Config) :
    (∃ r, ∀ s : State, s.cfg = cfg → exec i s = .next (reply r s)) ∨
    (∃ f, ∀ s : State, s.cfg = cfg → exec i s = .fault f) ∨
    ∃ f, ∀ s : State, s.cfg = cfg → exec i s = .refused f := by
  cases p with
  | encW w => cases hp; exact .inl ⟨_, fun _ _ => rfl⟩
  | valC c => cases hp; exact .inl ⟨.valD (valOf cfg.alphabet c), fun s h => by simp only [exec, execVal, h]⟩
  | symV v =>
    simp only [decodePort] at hp
    split at hp
    · cases hp
      cases hv : fieldDigit v with
      | none => exact .inr (.inr ⟨.reservedDigit, fun s h => by simp only [exec, execSym, hv]⟩)
      | some d => exact .inl ⟨.symC (symOf cfg.alphabet d), fun s h => by simp only [exec, execSym, hv, h]⟩
    · cases hp
  | decD d =>
    simp only [decodePort] at hp
    split at hp
    · cases hp
      rw [unpackFields]
      generalize d.extractLsb' 28 7 = d0, d.extractLsb' 21 7 = d1, d.extractLsb' 14 7 = d2, d.extractLsb' 7 7 = d3,
        d.extractLsb' 0 7 = d4
      cases hd : fieldsGroup d0 d1 d2 d3 d4 with
      | none => exact .inr (.inr ⟨.reservedDigit, fun s h => by simp only [exec, execDec5, hd]⟩)
      | some g =>
        cases hu : dec5Under cfg.overflow g with
        | ok w => exact .inl ⟨.decW w, fun s h => by simp only [exec, execDec5, hd, h, hu]⟩
        | error e =>
          obtain rfl := dec5Under_error hu
          exact .inr (.inl ⟨.overflowError, fun s h => by simp only [exec, execDec5, hd, h, hu, raiseError]⟩)
    · cases hp

end Sys2Proof.Machine
end

