-- ==== Sys2Proof/Laws/Step.lean ====
section
/-! SUPPORT. Once, everything the ports, the handshake and a step can do. -/

namespace Sys2Proof.Machine

/-- All that an operand can do on its port, which the parameters alone decide: it is answered, or it stops. -/
theorem portAnswer_cases (s : State) (p : PortWord) :
    (∃ i r, decodePort p = .ok i ∧ portAnswer s p = some r ∧
      ∀ s' : State, s'.cfg = s.cfg → portAnswer s' p = some r ∧ exec i s' = .next (reply r s')) ∨
    (portAnswer s p = none ∧
      ∀ s' : State, s'.cfg = s.cfg → portAnswer s' p = none ∧ ∀ t, stepProbe p s' ≠ .next t) := by
  cases hd : decodePort p with
  | error e => exact .inr ⟨by simp only [portAnswer, hd], fun s' _ => ⟨by simp only [portAnswer, hd], by
      intro t; simp only [stepProbe, hd]; nofun⟩⟩
  | ok i =>
    rcases exec_decodePort_cases hd s.cfg with ⟨r, hr⟩ | ⟨f, hf⟩ | ⟨f, hf⟩
    · have ha : ∀ s' : State, s'.cfg = s.cfg → portAnswer s' p = some r := fun s' h => by
        simp only [portAnswer, hd, hr { s' with portResults := [] } h]; rfl
      exact .inl ⟨i, r, rfl, ha s rfl, fun s' h => ⟨ha s' h, hr s' h⟩⟩
    · have ha : ∀ s' : State, s'.cfg = s.cfg → portAnswer s' p = none := fun s' h => by
        simp only [portAnswer, hd, hf { s' with portResults := [] } h]
      exact .inr ⟨ha s rfl, fun s' h => ⟨ha s' h, by intro t; simp only [stepProbe, hd, hf s' h]; nofun⟩⟩
    · have ha : ∀ s' : State, s'.cfg = s.cfg → portAnswer s' p = none := fun s' h => by
        simp only [portAnswer, hd, hf { s' with portResults := [] } h]
      exact .inr ⟨ha s rfl, fun s' h => ⟨ha s' h, by intro t; simp only [stepProbe, hd, hf s' h]; nofun⟩⟩

theorem portAnswer_congr {s s' : State} (h : s'.cfg = s.cfg) : portAnswer s' = portAnswer s := by
  funext p
  rcases portAnswer_cases s p with ⟨_, _, -, e, ha⟩ | ⟨e, ha⟩ <;> rw [e, (ha s' h).1]

@[simp] theorem servePorts_cfg (s : State) : (servePorts s).cfg = s.cfg := rfl
@[simp] theorem servePorts_hs (s : State) : (servePorts s).hs = s.hs := rfl
@[simp] theorem servePorts_rst (s : State) : (servePorts s).rst = s.rst := rfl
@[simp] theorem servePorts_rspReady (s : State) : (servePorts s).rspReady = s.rspReady := rfl
@[simp] theorem servePorts_cmds (s : State) : (servePorts s).cmds = s.cmds := rfl
@[simp] theorem servePorts_responses (s : State) : (servePorts s).responses = s.responses := rfl

@[simp] theorem handshakeMoves_servePorts (s : State) : handshakeMoves (servePorts s) = handshakeMoves s := rfl

/-- Where no operand has an answer the ports do nothing. -/
theorem servePorts_of_none {s : State} (h : portsAnswer s = false) : servePorts s = s := by
  have hn : ∀ p ∈ s.probes, portAnswer s p = none := by
    simpa only [portsAnswer, List.any_eq_false, Bool.not_eq_true, Option.isSome_eq_false_iff,
      Option.isNone_iff_eq_none] using h
  have h1 : s.probes.filter (fun p => (portAnswer s p).isNone) = s.probes :=
    List.filter_eq_self.2 fun p hp => by rw [hn p hp]; rfl
  have h2 : s.probes.filterMap (portAnswer s) = [] := List.filterMap_eq_nil_iff.2 hn
  rw [servePorts, h1, h2, List.append_nil]

@[simp] theorem servePorts_of_nil {s : State} (hp : s.probes = []) : servePorts s = s :=
  servePorts_of_none (by rw [portsAnswer, hp]; rfl)

/-- What is left standing has no answer. -/
theorem portsAnswer_servePorts (s : State) : portsAnswer (servePorts s) = false := by
  rw [portsAnswer, portAnswer_congr (servePorts_cfg s)]
  refine List.any_eq_false.2 fun p hp => ?_
  have : (portAnswer s p).isNone = true := (List.mem_filter.1 hp).2
  simpa using this

@[simp] theorem servePorts_servePorts (s : State) : servePorts (servePorts s) = servePorts s :=
  servePorts_of_none (portsAnswer_servePorts s)

/-- The ports look at nothing but the parameters and the operands, and change nothing but the operands and results. -/
theorem servePorts_with (s : State) (h : Handshake) (cs : List Command) (rs : List Response) :
    servePorts { s with hs := h, cmds := cs, responses := rs } =
      { servePorts s with hs := h, cmds := cs, responses := rs } := by
  simp only [servePorts, portAnswer_congr (s := s) (s' := { s with hs := h, cmds := cs, responses := rs }) rfl]

theorem stepHandshake_of_idle {s : State} (h : s.hs = .idle) : stepHandshake s = stepIdle s := by
  rw [stepHandshake, h]

theorem stepHandshake_of_busy {s : State} {c : Command} (h : s.hs = .busy c) :
    stepHandshake s = exec (decodeCommand c) s := by
  rw [stepHandshake, h]

theorem stepHandshake_of_respond {s : State} {r : Response} (h : s.hs = .respond r) :
    stepHandshake s = stepRespond r s := by
  rw [stepHandshake, h]

theorem stepBlock_of_rst {s : State} (h : s.rst = true) : stepBlock s = .next (applyReset s) := by
  rw [stepBlock, if_pos h]

theorem stepBlock_of_released {s : State} (h : s.rst = false) : stepBlock s = stepHandshake s := by
  rw [stepBlock, if_neg (by simp [h])]

/-- The cases of the handshake's move, guards included. -/
theorem stepBlock_cases {s t : State} (h : stepBlock s = .next t) :
    (s.rst = true ∧ t = applyReset s) ∨
    (s.rst = false ∧ s.hs = .idle ∧ s.cmds = [] ∧ t = s) ∨
    (s.rst = false ∧ s.hs = .idle ∧ ∃ c rest, s.cmds = c :: rest ∧ accepts s.cfg c.input = true ∧ t = accept c rest s) ∨
    (s.rst = false ∧ ∃ c, s.hs = .busy c ∧ accepts s.cfg c.input = true ∧
      ∃ r, responseTo s.cfg c = some r ∧ t = present r s) ∨
    (s.rst = false ∧ ∃ r, s.hs = .respond r ∧ s.rspReady = true ∧ t = deliver r s) ∨
    (s.rst = false ∧ ∃ r, s.hs = .respond r ∧ s.rspReady = false ∧ t = s) := by
  by_cases hr : s.rst = true
  · rw [stepBlock_of_rst hr] at h
    cases h; exact .inl ⟨hr, rfl⟩
  · have hrst : s.rst = false := by simpa using hr
    rw [stepBlock_of_released hrst] at h
    right
    cases hs : s.hs with
    | idle =>
      rw [stepHandshake_of_idle hs, stepIdle] at h
      split at h
      · cases h; exact .inl ⟨hrst, rfl, ‹_›, rfl⟩
      · obtain ⟨ha, h⟩ := ite_refused_next h
        cases h
        exact .inr (.inl ⟨hrst, rfl, _, _, ‹_›, ha, rfl⟩)
    | busy c =>
      rw [stepHandshake_of_busy hs] at h
      obtain ⟨ha, hr⟩ := exec_decodeCommand_next h
      exact .inr (.inr (.inl ⟨hrst, c, rfl, ha, hr⟩))
    | respond r =>
      rw [stepHandshake_of_respond hs, stepRespond] at h
      by_cases hb : s.rspReady = true
      · rw [if_pos hb] at h; cases h
        exact .inr (.inr (.inr (.inl ⟨hrst, r, rfl, hb, rfl⟩)))
      · rw [if_neg hb] at h; cases h
        exact .inr (.inr (.inr (.inr ⟨hrst, r, rfl, by simpa using hb, rfl⟩)))

/-- What no move of the handshake changes. -/
theorem stepBlock_keeps {s t : State} (h : stepBlock s = .next t) :
    t.cfg = s.cfg ∧ t.rst = s.rst ∧ t.rspReady = s.rspReady ∧ t.probes = s.probes ∧ t.portResults = s.portResults := by
  rcases stepBlock_cases h with ⟨-, rfl⟩ | ⟨-, -, -, rfl⟩ | ⟨-, -, c, rest, -, -, rfl⟩ | ⟨-, c, -, -, r, -, rfl⟩ |
    ⟨-, r, -, -, rfl⟩ | ⟨-, r, -, -, rfl⟩ <;> exact ⟨rfl, rfl, rfl, rfl, rfl⟩

theorem stepBlock_of_command {s : State} {c : Command} {rest : List Command} (hr : s.rst = false) (hh : s.hs = .idle)
    (hc : s.cmds = c :: rest) (ha : accepts s.cfg c.input = true) : stepBlock s = .next (accept c rest s) := by
  rw [stepBlock_of_released hr, stepHandshake_of_idle hh, stepIdle, hc]
  simp only [ha, if_true]

theorem stepBlock_of_busy {s : State} {c : Command} (hr : s.rst = false) (hh : s.hs = .busy c) :
    stepBlock s = exec (decodeCommand c) s := by
  rw [stepBlock_of_released hr, stepHandshake_of_busy hh]

theorem stepBlock_of_taken {s : State} {r : Response} (hr : s.rst = false) (hh : s.hs = .respond r)
    (hb : s.rspReady = true) : stepBlock s = .next (deliver r s) := by
  rw [stepBlock_of_released hr, stepHandshake_of_respond hh, stepRespond, if_pos hb]

/-- A handshake that waits for the host does nothing. -/
theorem stepBlock_of_waits {s : State} (h : handshakeMoves s = false) : stepBlock s = .next s := by
  simp only [handshakeMoves, Bool.or_eq_false_iff] at h
  obtain ⟨hr, hh⟩ := h
  rw [stepBlock_of_released hr]
  cases hs : s.hs with
  | idle =>
    rw [hs] at hh
    have hc : s.cmds = [] := by simpa using hh
    rw [stepHandshake_of_idle hs, stepIdle, hc]
  | busy c => rw [hs] at hh; cases hh
  | respond r =>
    rw [hs] at hh
    have hb : s.rspReady = false := hh
    rw [stepHandshake_of_respond hs, stepRespond, if_neg (by simp [hb])]

/-- A step answers the ports and makes the handshake's move from there. -/
theorem step_of_next {s t : State} (hm : handshakeMoves s = true) (h : stepBlock (servePorts s) = .next t) :
    step s = .next t := by
  rw [step, advance, if_pos hm, h]

/-- Where some operand has an answer a step never stops. -/
theorem step_of_answer {s : State} (ha : portsAnswer s = true) :
    step s = match stepBlock (servePorts s) with
      | .next t => .next t
      | .fault _ => .next (servePorts s)
      | .refused _ => .next (servePorts s) := by
  rw [step, advance]
  by_cases hm : handshakeMoves s = true
  · rw [if_pos hm]
    cases stepBlock (servePorts s) <;> simp [ha]
  · rw [if_neg hm, if_pos ha, stepBlock_of_waits (s := servePorts s) (by simpa using hm)]

/-- Where none has one, and the handshake moves, a step is its move. -/
theorem step_of_moves {s : State} (ha : portsAnswer s = false) (hm : handshakeMoves s = true) :
    step s = stepBlock s := by
  rw [step, advance, if_pos hm, servePorts_of_none ha]
  cases stepBlock s <;> simp [ha]

/-- Where none has one and the handshake waits, the first operand stops the machine. -/
theorem step_of_stop {s : State} {p : PortWord} {rest : List PortWord} (ha : portsAnswer s = false)
    (hm : handshakeMoves s = false) (hp : s.probes = p :: rest) : step s = stepProbe p s := by
  rw [step, advance, if_neg (by simp [hm]), if_neg (by simp [ha]), hp]

theorem step_of_quiet {s : State} (hm : handshakeMoves s = false) (hp : s.probes = []) : step s = .next s := by
  rw [step, advance, if_neg (by simp [hm]), if_neg (by simp [portsAnswer, hp]), hp]

theorem step_of_no_operand {s : State} (hp : s.probes = []) : step s = stepBlock s := by
  cases hm : handshakeMoves s with
  | true => exact step_of_moves (by simp [portsAnswer, hp]) hm
  | false => rw [step_of_quiet hm hp, stepBlock_of_waits hm]

/-- The cases of a step: the ports, then the handshake's move, unless that move stops. -/
theorem step_cases {s t : State} (h : step s = .next t) :
    stepBlock (servePorts s) = .next t ∨ t = servePorts s := by
  cases ha : portsAnswer s with
  | true =>
    rw [step_of_answer ha] at h
    split at h
    · cases h; exact .inl ‹_›
    · cases h; exact .inr rfl
    · cases h; exact .inr rfl
  | false =>
    rw [servePorts_of_none ha]
    cases hm : handshakeMoves s with
    | true => rw [step_of_moves ha hm] at h; exact .inl h
    | false =>
      cases hp : s.probes with
      | nil => rw [step_of_quiet hm hp] at h; cases h; exact .inr rfl
      | cons p rest =>
        rw [step_of_stop ha hm hp] at h
        rcases portAnswer_cases s p with ⟨_, _, -, e, -⟩ | ⟨-, hn⟩
        · simp [portsAnswer, hp, e] at ha
        · exact absurd h ((hn s rfl).2 t)

end Sys2Proof.Machine
end

