-- ==== Sys2Proof/Machine/Written.lean ====
section
/-! DEFINITION. The written form of operations and responses (R62), as lists of characters. It gives no operation any
effect. -/

namespace Sys2Proof.Machine

/-- One hexadecimal digit, capital letters as the spec's examples have them. -/
def hexDigit (n : Nat) : Char := if n < 10 then Char.ofNat (48 + n) else Char.ofNat (55 + n)

/-- Two hexadecimal digits. -/
def hexByte (b : Byte) : List Char := [hexDigit (b.toNat / 16), hexDigit (b.toNat % 16)]

/-- `b0 b1 ...`, one space before each octet. -/
def hexFrame (f : Frame) : List Char := f.flatMap (fun b => ' ' :: hexByte b)

/-- `0xHHHHHHHH`. -/
def hexWord (w : Word) : List Char :=
  '0' :: 'x' :: (hexByte (w.extractLsb' 24 8) ++ hexByte (w.extractLsb' 16 8) ++ hexByte (w.extractLsb' 8 8) ++
    hexByte (w.extractLsb' 0 8))

/-- A decimal number. -/
def decimal (n : Nat) : List Char := Nat.toDigits 10 n

/-- An octet that is written as its character: 0x20 to 0x7E (the spec writes the space so). -/
def isWritable (b : Byte) : Bool := decide (0x20 ≤ b.toNat) && decide (b.toNat ≤ 0x7E)

/-- An octet inside double quotes: its character, or `\xHH`; the quote and the backslash are escaped too, so that the
form reads back one way (log 18). -/
def quotedByte (b : Byte) : List Char :=
  if isWritable b && b != 0x22#8 && b != 0x5C#8 then [Char.ofNat b.toNat] else '\\' :: 'x' :: hexByte b

def quotedText (f : Frame) : List Char := '"' :: (f.flatMap quotedByte ++ ['"'])

/-- An octet alone: `'c'` or `0xHH`. -/
def writtenByte (b : Byte) : List Char :=
  if isWritable b then ['\'', Char.ofNat b.toNat, '\''] else '0' :: 'x' :: hexByte b

/-- The mnemonic form of an operation (R62). -/
def writtenInstr : Instr → List Char
  | .encode input => ['E', 'N', 'C', 'O', 'D', 'E'] ++ hexFrame input
  | .decode input => ['D', 'E', 'C', 'O', 'D', 'E', ' '] ++ quotedText input
  | .enc32 w => ['E', 'N', 'C', '3', '2', ' '] ++ hexWord w
  | .dec5 d0 d1 d2 d3 d4 =>
    ['D', 'E', 'C', '5', ' '] ++ decimal d0.toNat ++ [','] ++ decimal d1.toNat ++ [','] ++ decimal d2.toNat ++ [','] ++
      decimal d3.toNat ++ [','] ++ decimal d4.toNat
  | .sym v => ['S', 'Y', 'M', ' '] ++ decimal v.toNat
  | .val c => ['V', 'A', 'L', ' '] ++ writtenByte c

/-- The written form of the response to a command: text after ENCODE, octets after DECODE (R62). -/
def writtenResponse (c : Command) : Response → List Char
  | .ok out =>
    ['-', '>', ' ', 'O', 'K'] ++ (if c.op = 0#1 then ' ' :: quotedText out else hexFrame out)
  | .lengthError => ['-', '>', ' ', 'L', 'E', 'N', 'G', 'T', 'H', '_', 'E', 'R', 'R', 'O', 'R']
  | .invalidCharacter ch p =>
    ['-', '>', ' ', 'I', 'N', 'V', 'A', 'L', 'I', 'D', '_', 'C', 'H', 'A', 'R', 'A', 'C', 'T', 'E', 'R', ' '] ++
      writtenByte ch ++ [' ', 'a', 't', ' '] ++ decimal p

end Sys2Proof.Machine
end

