-- ==== Sys2Proof/Tests/Slice0.lean ====
section
/-! SUPPORT. The model's own tests: ill-formed operands, words written out from the formats, the spec's vectors, and a
witness for the hypotheses of every obligation. Expected results are those of spec/95_test_vectors.md (V1 to V38, P1 to
P4) and spec/30_encoding.md, not the model's. -/

namespace Sys2Proof.Tests

open Sys2Proof Sys2Proof.Machine

/-! ## Small states and readers -/

/-- The state after reset with another policy and MAX_LEN. -/
def under (p : OverflowPolicy) (m : Option Nat) : State :=
  { State.reset with cfg := ⟨defaultAlphabet, p, m⟩ }

/-- An `IDLE` block with these commands presented and the host ready. -/
def presented (cs : List Command) : State := { State.reset with rspReady := true, cmds := cs }

def busyWith (c : Command) : State := { State.reset with hs := .busy c }
def respondWith (r : Response) : State := { State.reset with hs := .respond r }

/-- The handshake after a step. -/
def hsAfter : Host.Outcome State Fault Refusal → Option Handshake
  | .next s => some s.hs
  | .fault _ => none
  | .refused _ => none

/-- The results on the ports after a step. -/
def portsAfter : Host.Outcome State Fault Refusal → List PortResult
  | .next s => s.portResults
  | .fault _ => []
  | .refused _ => []

/-- A text literal of the spec as a frame (R10). -/
def ascii (l : List Char) : Frame := l.map (fun c => BitVec.ofNat 8 c.toNat)

def hello : Frame := ascii ['H', 'e', 'l', 'l', 'o']
def helloWorld : Frame := hello ++ ascii ['W', 'o', 'r', 'l', 'd']
def helloOctets : Frame := [0x86#8, 0x4F#8, 0xD2#8, 0x6F#8]
def helloWorldOctets : Frame := helloOctets ++ [0xB5#8, 0x59#8, 0xF7#8, 0x5B#8]
def hashes : Frame := ascii ['#', '#', '#', '#', '#']

/-! ## WellFormed (R46, R60) -/

theorem smoke_legal_operands : (Instr.dec5 84#7 0#7 84#7 0#7 84#7).wellFormed = true ∧ (Instr.sym 84#7).wellFormed = true ∧
    (Instr.encode [0x01#8]).wellFormed = true ∧ (Instr.decode [0x7E#8]).wellFormed = true := by decide

theorem smoke_dec5_d0 : (Instr.dec5 85#7 0#7 0#7 0#7 0#7).wellFormed = false := by decide
theorem smoke_dec5_d1 : (Instr.dec5 0#7 85#7 0#7 0#7 0#7).wellFormed = false := by decide
theorem smoke_dec5_d2 : (Instr.dec5 0#7 0#7 127#7 0#7 0#7).wellFormed = false := by decide
theorem smoke_dec5_d3 : (Instr.dec5 0#7 0#7 0#7 85#7 0#7).wellFormed = false := by decide
theorem smoke_dec5_d4 : (Instr.dec5 0#7 0#7 0#7 0#7 85#7).wellFormed = false := by decide
theorem smoke_sym : (Instr.sym 85#7).wellFormed = false ∧ (Instr.sym 127#7).wellFormed = false := by decide

/-! ## Decoding words written out from the formats (R47, R55, R58) -/

/-- CMD: selector 0 is ENCODE, 1 is DECODE (R55). -/
theorem test_decode_commands : decodeTableWord 8 0b0 = some (.encode []) ∧ decodeTableWord 8 0b1 = some (.decode []) ∧
    decodeCommand ⟨0#1, helloOctets⟩ = .encode helloOctets ∧ decodeCommand ⟨1#1, hello⟩ = .decode hello := by decide

/-- ENC_UNIT: `enc_w[31:0]` (R58). -/
theorem test_decode_enc32 : decodeTableWord 32 0b11011110101011011011111011101111 = some (.enc32 0xDEADBEEF#32) := by
  decide

/-- DEC_UNIT: 71, 48, 28, 45, 59 as `1000111 0110000 0011100 0101101 0111011` (P4, R47); one field at its top value. -/
theorem test_decode_dec5 :
    decodeTableWord 40 0b10001110110000001110001011010111011 = some (.dec5 71#7 48#7 28#7 45#7 59#7) ∧
    decodeTableWord 40 0b10101000000000000000000000000000000 = some (.dec5 84#7 0#7 0#7 0#7 0#7) ∧
    decodeTableWord 40 0b00000001010100000000000000000000000 = some (.dec5 0#7 84#7 0#7 0#7 0#7) ∧
    decodeTableWord 40 0b00000000000000000000000000001010100 = some (.dec5 0#7 0#7 0#7 0#7 84#7) := by decide

/-- SYM_PORT: `sym_v[6:0]` (R58). -/
theorem test_decode_sym : decodePort (.symV 0b1010100#7) = .ok (.sym 84#7) ∧
    decodeTableWord 8 0b0101011 = some (.sym 43#7) := by decide

/-- VAL_PORT: `val_c[7:0]` (R58). -/
theorem test_decode_val : decodePort (.valC 0b01001000#8) = .ok (.val 0x48#8) ∧
    decodeTableWord 8 0b11111111 = some (.val 0xFF#8) := by decide

/-- Reserved digit codes, and bits above a row's, are no operation (R60). -/
theorem test_decode_rejects : decodePort (.symV 0b1010101#7) = .error .symReservedDigit ∧
    decodePort (.decD 0b10101010000000000000000000000000000#35) = .error .dec5ReservedDigit ∧
    decodeTableWord 40 0b00000000000000000000000000001111111 = none ∧ decodeTableWord 40 (2 ^ 35) = none ∧
    decodeTableWord 64 0 = none := by decide

/-! ## The alphabet (R51 to R54) -/

theorem test_default_alphabet_is_admissible : admissible defaultAlphabet = true := by decide

/-- R49: `Hello` as one vector, `H` on top. -/
theorem test_text_group_vector : packText ⟨0x48#8, 0x65#8, 0x6C#8, 0x6C#8, 0x6F#8⟩ = 0x48656C6C6F#40 ∧
    unpackText 0x48656C6C6F#40 = ⟨0x48#8, 0x65#8, 0x6C#8, 0x6C#8, 0x6F#8⟩ := by decide

/-! ## One step of each operation -/

/-- V7, V9, V15, V21, V22: digits packed first in the top field. -/
theorem test_enc32_vectors :
    portsAfter (exec (.enc32 0x00000000#32) State.reset) = [.encD 0#35] ∧
    portsAfter (exec (.enc32 0x00000054#32) State.reset) = [.encD 84#35] ∧
    portsAfter (exec (.enc32 0x031C84B1#32) State.reset) = [.encD 0b00000010000000000000000000000000000#35] ∧
    portsAfter (exec (.enc32 0xFFFFFFFF#32) State.reset) = [.encD 0b10100100010111011011000011000000000#35] ∧
    portsAfter (exec (.enc32 0xDEADBEEF#32) State.reset) = [.encD 0x4760716BB#35] := by decide

/-- V10 to V14, V16 to V20 as digits. -/
theorem test_enc32_digits :
    [enc32 0x00000055#32, enc32 0x00001C38#32, enc32 0x00001C39#32, enc32 0x00095EED#32, enc32 0x031C84B0#32,
      enc32 0x000000FF#32, enc32 0x01000000#32, enc32 0x7FFFFFFF#32, enc32 0x80000000#32, enc32 0xFFFFFFFE#32] =
    [⟨0, 0, 0, 1, 0⟩, ⟨0, 0, 0, 84, 84⟩, ⟨0, 0, 1, 0, 0⟩, ⟨0, 1, 0, 0, 0⟩, ⟨0, 84, 84, 84, 84⟩, ⟨0, 0, 0, 3, 0⟩,
      ⟨0, 27, 27, 9, 1⟩, ⟨41, 11, 69, 48, 42⟩, ⟨41, 11, 69, 48, 43⟩, ⟨82, 23, 54, 11, 84⟩] := by decide

/-- V23b to V23e and P4: the last digit is not multiplied, and the wrap at the final add. -/
theorem test_dec5_vectors :
    portsAfter (exec (.dec5 0#7 0#7 0#7 0#7 84#7) State.reset) = [.decW 0x00000054#32] ∧
    portsAfter (exec (.dec5 1#7 0#7 0#7 0#7 0#7) State.reset) = [.decW 0x031C84B1#32] ∧
    portsAfter (exec (.dec5 82#7 23#7 54#7 12#7 0#7) State.reset) = [.decW 0xFFFFFFFF#32] ∧
    portsAfter (exec (.dec5 82#7 23#7 54#7 12#7 1#7) State.reset) = [.decW 0x00000000#32] ∧
    portsAfter (exec (.dec5 71#7 48#7 28#7 45#7 59#7) State.reset) = [.decW 0xDEADBEEF#32] := by decide

/-- V23f to V23i: the wrap at the fourth multiply, and the reserved code 85. -/
theorem test_dec5_overflow :
    portsAfter (exec (.dec5 82#7 23#7 54#7 13#7 0#7) State.reset) = [.decW 0x00000054#32] ∧
    portsAfter (exec (.dec5 83#7 0#7 0#7 0#7 0#7) State.reset) = [.decW 0x023F0563#32] ∧
    portsAfter (exec (.dec5 84#7 84#7 84#7 84#7 84#7) State.reset) = [.decW 0x08780EC4#32] ∧
    exec (.dec5 85#7 0#7 0#7 0#7 0#7) State.reset = .refused .reservedDigit := ⟨by decide, by decide, by decide, rfl⟩

/-- V25: entries the source fixes, and the ends of the table. -/
theorem test_sym_vectors :
    [13, 14, 21, 24, 27, 43, 58, 0, 84].map (symOf defaultAlphabet) =
      ascii ['d', 'e', 'l', 'o', 'r', 'H', 'W', '0', '#'] ∧
    portsAfter (exec (.sym 36#7) State.reset) = [.symC 0x41#8] ∧
    exec (.sym 85#7) State.reset = .refused .reservedDigit := ⟨by decide, by decide, rfl⟩

/-- V26: hits, case, and non-members. -/
theorem test_val_vectors :
    (ascii ['H', 'h', '.', '#']).map (valOf defaultAlphabet) = [some 43, some 17, some 62, some 84] ∧
    [0x7E#8, 0x20#8, 0x22#8, 0x7C#8, 0x00#8, 0x7F#8, 0xFF#8].all (fun c => valOf defaultAlphabet c == none) = true ∧
    portsAfter (exec (.val 0x48#8) State.reset) = [.valD (some 43)] := by decide

/-- V1 and V34: the source's vector, and the octet at the lowest index is the most significant. -/
theorem test_encode_vectors :
    hsAfter (exec (.encode helloWorldOctets) State.reset) = some (.respond (.ok helloWorld)) ∧
    hsAfter (exec (.encode [0x00#8, 0x01#8, 0x00#8, 0x00#8]) State.reset) =
      some (.respond (.ok (ascii ['0', '0', '9', '6', '1']))) := by decide

/-- V3 and V30: a wrong length, and the empty frame. -/
theorem test_encode_lengths :
    hsAfter (exec (.encode [0x01#8, 0x02#8, 0x03#8, 0x04#8, 0x05#8]) State.reset) = some (.respond .lengthError) ∧
    hsAfter (exec (.encode []) State.reset) = some (.respond (.ok [])) := by decide

/-- V2 and V36: the source's vector, and an overflowing group between two others. -/
theorem test_decode_vectors :
    hsAfter (exec (.decode helloWorld) State.reset) = some (.respond (.ok helloWorldOctets)) ∧
    hsAfter (exec (.decode (hello ++ hashes ++ ascii ['W', 'o', 'r', 'l', 'd'])) State.reset) =
      some (.respond (.ok (helloOctets ++ [0x08#8, 0x78#8, 0x0E#8, 0xC4#8, 0xB5#8, 0x59#8, 0xF7#8, 0x5B#8]))) := by decide

/-- V27, V29, V33: the length error wins, and the lowest index is reported. -/
theorem test_decode_errors :
    hsAfter (exec (.decode (ascii ['~', '~', '~', '~'])) State.reset) = some (.respond .lengthError) ∧
    hsAfter (exec (.decode (ascii ['H', 'e', '|', 'l', 'o', '~', 'o', 'r', 'l', 'd'])) State.reset) =
      some (.respond (.invalidCharacter 0x7C#8 2)) ∧
    hsAfter (exec (.decode (ascii ['H', 'e', 'l', 'l', ' '])) State.reset) =
      some (.respond (.invalidCharacter 0x20#8 4)) := by decide

/-! ## The handshake -/

/-- The very next step runs a word placed by `withFetchWord`, whatever the block was doing. -/
theorem test_placed_words_run_next :
    hsAfter (step ((respondWith .lengthError).withFetchWord 8 1)) = some (.respond (.ok [])) ∧
    portsAfter (step ((busyWith ⟨0#1, []⟩).withFetchWord 32 0xFFFFFFFF)) =
      [.encD 0b10100100010111011011000011000000000#35] := by decide

/-- R119: `rst` abandons an operation without a response. -/
theorem test_rst_abandons :
    step { busyWith ⟨1#1, hello⟩ with rst := true } = .next { State.reset with rst := true } := rfl

/-- R125, R128: one step answers every port and completes the command; a reserved code holds neither `BUSY` nor another
port up, and stops the machine only once there is nothing else to do. -/
theorem test_ports_beside_the_handshake :
    portsAfter (step { busyWith ⟨1#1, hello⟩ with probes := [.symV 85#7, .valC 0x48#8, .symV 13#7] }) =
      [.valD (some 43), .symC 0x64#8] ∧
    hsAfter (step { busyWith ⟨1#1, hello⟩ with probes := [.symV 85#7, .valC 0x48#8] }) =
      some (.respond (.ok helloOctets)) ∧
    portsAfter (step { State.reset with probes := [.symV 85#7, .valC 0x48#8] }) = [.valD (some 43)] ∧
    step { respondWith .lengthError with probes := [.symV 85#7] } = .refused .reservedDigit :=
  ⟨by decide, by decide, by decide, rfl⟩

/-- R117: the ports answer while `rst` is held. -/
theorem test_ports_answer_under_rst :
    portsAfter (step { State.reset with rst := true, probes := [.symV 85#7, .symV 13#7] }) = [.symC 0x64#8] := by decide

/-! ## Written forms (R62) -/

/-- V1 and V5 as the spec writes them. -/
theorem test_written_forms :
    writtenInstr (.encode [0x01#8, 0xF7#8]) = ['E', 'N', 'C', 'O', 'D', 'E', ' ', '0', '1', ' ', 'F', '7'] ∧
    writtenInstr (.sym 13#7) = ['S', 'Y', 'M', ' ', '1', '3'] ∧
    writtenInstr (.val 0x80#8) = ['V', 'A', 'L', ' ', '0', 'x', '8', '0'] ∧
    writtenInstr (.decode [0x00#8]) = ['D', 'E', 'C', 'O', 'D', 'E', ' ', '"', '\\', 'x', '0', '0', '"'] ∧
    writtenResponse ⟨0#1, []⟩ (.ok [0x30#8]) = ['-', '>', ' ', 'O', 'K', ' ', '"', '0', '"'] := by decide

/-! ## Witnesses: for every obligation with hypotheses, concrete operands and states that meet all of them together, at
the boundary values of each clause -/

/-- Operands at the ends of their ranges. -/
theorem witness_DecodeUndoesEncode : (Instr.dec5 84#7 0#7 84#7 0#7 84#7).wellFormed = true ∧
    (Instr.sym 84#7).wellFormed = true ∧ (Instr.decode hello).wellFormed = true := by decide

theorem witness_EncodeUndoesDecode : decode (.port (.decD 0x4760716BB#35)) = .ok (.dec5 71#7 48#7 28#7 45#7 59#7) ∧
    decode (.command ⟨1#1, hello⟩) = .ok (.decode hello) ∧ decode (.port (.symV 84#7)) = .ok (.sym 84#7) := by decide

/-- The first and the last reserved code; rejected words that stop an idle block, and one beside a busy command. -/
theorem witness_ReservedDigitCodesAreRefused : 85 ≤ (85#7).toNat ∧ 85 ≤ (127#7).toNat ∧
    decodePort (.symV 85#7) = .error .symReservedDigit ∧ decodePort (.symV 127#7) = .error .symReservedDigit ∧
    handshakeMoves { State.reset with probes := [.symV 85#7, .symV 127#7] } = false ∧
    ∃ t, step { busyWith ⟨1#1, hello⟩ with probes := [.symV 85#7] } = .next t ∧ t.probes = [.symV 85#7] :=
  ⟨by decide, by decide, by decide, by decide, by decide, ⟨_, rfl, rfl⟩⟩

theorem witness_SymGivesTheCharacterOfTheDigit : (0#7).toNat < 85 ∧ (84#7).toNat < 85 := by decide

/-- With a member and a non-member of the same alphabet, so that both answers are met. -/
theorem witness_ValGivesTheDigitOfTheCharacter : meetsSource State.reset.cfg.alphabet = true ∧
    valOf State.reset.cfg.alphabet 0x23#8 = some 84 ∧ valOf State.reset.cfg.alphabet 0x7E#8 = none := by decide

theorem witness_SymAndValAreInverses : meetsSource defaultAlphabet = true ∧ 0x30#8 ∈ defaultAlphabet.toList ∧
    0x7E#8 ∉ defaultAlphabet.toList := by decide

/-- The largest value any group has. -/
theorem witness_ValueCountsGroupsInDictionaryOrder : (4437053124 : Nat) ≤ 4437053124 ∧
    valueOf ⟨84, 84, 84, 84, 84⟩ = 4437053124 := by decide

/-- The largest group under WRAP_EXACT, and the largest that does not overflow under FAULT. -/
theorem witness_Dec5GivesTheValueModuloTheWord : (84#7).toNat < 85 ∧ State.reset.cfg.overflow = .wrapExact ∧
    (under .fault none).cfg.overflow ≠ .wrapExact ∧
    (82#7).toNat * 85 ^ 4 + (23#7).toNat * 85 ^ 3 + (54#7).toNat * 85 ^ 2 + (12#7).toNat * 85 + (0#7).toNat < 2 ^ 32 := by
  decide

/-- The smallest overflowing group, under both policies. -/
theorem witness_Dec5OfAnOverflowingGroupFollowsThePolicy : 2 ^ 32 ≤ valueOf ⟨82, 23, 54, 12, 1⟩ ∧
    (under .anyValue none).cfg.overflow = .anyValue ∧ (under .fault none).cfg.overflow = .fault := by decide

/-- The groups on the two sides of `2^32`. -/
theorem witness_Dec5ClosedForm : valueOf ⟨82, 23, 54, 12, 0⟩ < 2 ^ 32 ∧ 2 ^ 32 ≤ valueOf ⟨82, 23, 54, 12, 1⟩ := by decide

/-- The prefixes on the two sides of each wrap. -/
theorem witness_Dec5WrapsAtMostOnceAndWhere :
    50529027 = (82 : Digit).val * 85 ^ 3 + (23 : Digit).val * 85 ^ 2 + (54 : Digit).val * 85 + (12 : Digit).val ∧
    50529028 = (82 : Digit).val * 85 ^ 3 + (23 : Digit).val * 85 ^ 2 + (54 : Digit).val * 85 + (13 : Digit).val := by decide

theorem witness_Enc32UndoesDec5ExactlyBelowTheWord : 2 ^ 32 ≤ valueOf ⟨84, 84, 84, 84, 84⟩ := by decide

/-- The words on the two sides of the bound. -/
theorem witness_Dec5IsTwoToOneOnTheSmallWords : (0x08780EC4#32).toNat ≤ 142085828 ∧ 142085829 ≤ (0x08780EC5#32).toNat := by
  decide

theorem witness_TextGroupsOfWordsAreABijection : meetsSource (under .fault none).cfg.alphabet = true ∧
    digitsOf defaultAlphabet ⟨0x25#8, 0x6E#8, 0x53#8, 0x63#8, 0x30#8⟩ = some ⟨82, 23, 54, 12, 0⟩ ∧
    valueOf ⟨82, 23, 54, 12, 0⟩ < 2 ^ 32 := by decide

/-- A frame exactly at MAX_LEN, and the last character of its last group. -/
theorem witness_EncodeAnswersTheTextFrame : accepts (under .wrapExact (some 8)).cfg helloWorldOctets = true ∧
    helloWorldOctets.length % 4 = 0 ∧ 1 < helloWorldOctets.length / 4 ∧ 4 < 5 := by decide

theorem witness_EncodeResultIsATextFrameDecodeTakes : meetsSource State.reset.cfg.alphabet = true ∧
    encodeFrame State.reset.cfg helloWorldOctets = .ok helloWorld := by decide

/-- V36: two frames of three blocks that differ in the middle one. -/
theorem witness_EncodeGroupsAreIndependentAndInOrder :
    (helloOctets ++ helloWorldOctets).length = ([0x00#8, 0x00#8, 0x00#8, 0x00#8] ++ helloWorldOctets).length ∧
    encodeFrame defaultConfig (helloOctets ++ helloWorldOctets) = .ok (hello ++ helloWorld) ∧
    encodeFrame defaultConfig ([0x00#8, 0x00#8, 0x00#8, 0x00#8] ++ helloWorldOctets) =
      .ok (ascii ['0', '0', '0', '0', '0'] ++ helloWorld) ∧
    memRead (helloOctets ++ helloWorldOctets) (4 * 1) 4 = blockFrame ⟨0x86#8, 0x4F#8, 0xD2#8, 0x6F#8⟩ := by decide

/-- Each operation with a right length and with a wrong one, all within MAX_LEN. -/
theorem witness_LengthGuards : accepts (under .wrapExact (some 5)).cfg hello = true ∧ hello.length % 4 ≠ 0 ∧
    hello.length % 5 = 0 ∧ accepts (under .wrapExact (some 5)).cfg helloOctets = true ∧ helloOctets.length % 4 = 0 ∧
    helloOctets.length % 5 ≠ 0 := by decide

/-- Under WRAP_EXACT a frame with an overflowing group. -/
theorem witness_DecodeAnswersTheBinaryFrame : accepts (under .wrapExact (some 10)).cfg (hello ++ hashes) = true ∧
    isTextFrame defaultAlphabet (hello ++ hashes) = true ∧ (under .wrapExact (some 10)).cfg.overflow = .wrapExact ∧
    1 < (hello ++ hashes).length / 5 ∧ holdsGroup defaultAlphabet (hello ++ hashes) 1 ⟨84, 84, 84, 84, 84⟩ :=
  ⟨by decide, by decide, by decide, by decide, by unfold holdsGroup; decide⟩

/-- Under FAULT a frame with no overflowing group: every group it holds is the one named. -/
theorem witness_DecodeAnswersTheBinaryFrame_fault : accepts (under .fault none).cfg hello = true ∧
    isTextFrame (under .fault none).cfg.alphabet hello = true ∧
    ∀ g, g < hello.length / 5 → ∀ d, holdsGroup (under .fault none).cfg.alphabet hello g d → valueOf d < 2 ^ 32 := by
  refine ⟨by decide, by decide, fun g hg d hd => ?_⟩
  obtain rfl : g = 0 := by have : hello.length / 5 = 1 := by decide
                           omega
  have h : (memRead hello (5 * 0) 5).map (valOf defaultAlphabet) = [some 43, some 14, some 21, some 21, some 24] := by
    decide
  obtain ⟨d0, d1, d2, d3, d4⟩ := d
  have hd : [some 43, some 14, some 21, some 21, some 24] = [some d0, some d1, some d2, some d3, some d4] := h ▸ hd
  simp only [List.cons.injEq, Option.some.injEq, and_true] at hd
  obtain ⟨rfl, rfl, rfl, rfl, rfl⟩ := hd
  decide

/-- One group of each kind. -/
theorem witness_DecodeUnderAnyValueDrawsOnlyForOverflowingGroups :
    accepts (under .anyValue none).cfg (hello ++ hashes) = true ∧ isTextFrame defaultAlphabet (hello ++ hashes) = true ∧
    (under .anyValue none).cfg.overflow = .anyValue ∧
    holdsGroup defaultAlphabet (hello ++ hashes) 0 ⟨43, 14, 21, 21, 24⟩ ∧ valueOf ⟨43, 14, 21, 21, 24⟩ < 2 ^ 32 ∧
    holdsGroup defaultAlphabet (hello ++ hashes) 1 ⟨84, 84, 84, 84, 84⟩ ∧ 2 ^ 32 ≤ valueOf ⟨84, 84, 84, 84, 84⟩ :=
  ⟨by decide, by decide, by decide, by unfold holdsGroup; decide, by decide, by unfold holdsGroup; decide, by decide⟩

/-- The overflowing group comes after a group of members and before a non-member. -/
theorem witness_DecodeUnderFaultFaultsOnAnOverflowingGroup :
    accepts (under .fault none).cfg (hello ++ hashes ++ ascii ['~', '~', '~', '~', '~']) = true ∧
    (hello ++ hashes ++ ascii ['~', '~', '~', '~', '~']).length % 5 = 0 ∧ (under .fault none).cfg.overflow = .fault ∧
    1 < (hello ++ hashes ++ ascii ['~', '~', '~', '~', '~']).length / 5 ∧
    holdsGroup defaultAlphabet (hello ++ hashes ++ ascii ['~', '~', '~', '~', '~']) 1 ⟨84, 84, 84, 84, 84⟩ ∧
    2 ^ 32 ≤ valueOf ⟨84, 84, 84, 84, 84⟩ ∧
    ∀ c ∈ (hello ++ hashes ++ ascii ['~', '~', '~', '~', '~']).take (5 * 1), isMember defaultAlphabet c = true :=
  ⟨by decide, by decide, by decide, by decide, by unfold holdsGroup; decide, by decide, by decide⟩

/-- V28: the non-member at index 5; and, at index 0 under FAULT, no whole group before it. -/
theorem witness_DecodeReportsTheLowestNonMember :
    accepts State.reset.cfg (hello ++ ascii ['~', 'o', 'r', 'l', 'd']) = true ∧
    (hello ++ ascii ['~', 'o', 'r', 'l', 'd']).length % 5 = 0 ∧
    (hello ++ ascii ['~', 'o', 'r', 'l', 'd'])[5]? = some 0x7E#8 ∧ isMember State.reset.cfg.alphabet 0x7E#8 = false ∧
    (∀ x ∈ (hello ++ ascii ['~', 'o', 'r', 'l', 'd']).take 5, isMember State.reset.cfg.alphabet x = true) ∧
    State.reset.cfg.overflow ≠ .fault ∧
    (ascii ['~', '~', '~', '~', '~'])[0]? = some 0x7E#8 ∧
    (∀ g, g < 0 / 5 → ∀ d, holdsGroup (under .fault none).cfg.alphabet (ascii ['~', '~', '~', '~', '~']) g d →
      valueOf d < 2 ^ 32) :=
  ⟨by decide, by decide, by decide, by decide, by decide, by decide, by decide, fun g hg => absurd hg (by omega)⟩

/-- The four rows of R103, on one frame each. -/
theorem witness_DecodeErrorPriority : defaultConfig.overflow ≠ .fault ∧
    (hello.length % 5 = 0 ∧ ∀ c ∈ hello, isMember defaultConfig.alphabet c = true) ∧
    ((ascii ['~', '~', '~', '~', '~']).length % 5 = 0 ∧
      ∃ c ∈ ascii ['~', '~', '~', '~', '~'], isMember defaultConfig.alphabet c = false) ∧
    (ascii ['f', 'o', 'u', 'r']).length % 5 ≠ 0 ∧ (ascii ['~', '~', '~', '~']).length % 5 ≠ 0 ∧
    encodeFrame defaultConfig hello = .error .lengthError := by decide

theorem witness_DecodeGroupsAreIndependent : decodeFrame defaultConfig (hello ++ hashes) =
      .ok (helloOctets ++ [0x08#8, 0x78#8, 0x0E#8, 0xC4#8]) ∧
    decodeFrame defaultConfig (hashes ++ hello) = .ok ([0x08#8, 0x78#8, 0x0E#8, 0xC4#8] ++ helloOctets) ∧
    memRead (hello ++ hashes) (5 * 0) 5 = memRead (hashes ++ hello) (5 * 1) 5 := by decide

theorem witness_UpfrontValidationGivesTheSameResponse : (under .anyValue none).cfg.overflow ≠ .fault := by decide

/-- One octet above MAX_LEN, of a length ENCODE would take. -/
theorem witness_FrameAboveMaxLenIsRefused : (under .wrapExact (some 3)).cfg.maxLen = some 3 ∧ 3 < helloOctets.length ∧
    { under .wrapExact (some 3) with cmds := [⟨0#1, helloOctets⟩] }.rst = false ∧
    portsAnswer { under .wrapExact (some 3) with cmds := [⟨0#1, helloOctets⟩] } = false ∧
    portsAnswer { under .wrapExact (some 3) with cmds := [⟨0#1, helloOctets⟩], probes := [.valC 0x48#8] } = true ∧
    { under .wrapExact (some 3) with cmds := [⟨0#1, helloOctets⟩] }.hs = .idle := by decide

/-- MAX_LEN admits the binary frame and its text, or only the binary frame. -/
theorem witness_BinaryRoundTrip : meetsSource State.reset.cfg.alphabet = true ∧ helloWorldOctets.length % 4 = 0 ∧
    accepts (under .fault (some 10)).cfg helloWorldOctets = true ∧ accepts (under .fault (some 10)).cfg helloWorld = true ∧
    accepts (under .fault (some 8)).cfg helloWorldOctets = true := by decide

/-- A text frame with a group of each kind (the first clause's is in `witness_DecodeAnswersTheBinaryFrame_fault`). -/
theorem witness_TextRoundTripExceptOverflowingGroups : meetsSource defaultConfig.alphabet = true ∧
    isTextFrame defaultConfig.alphabet (hello ++ hashes) = true ∧ defaultConfig.overflow = .wrapExact ∧
    1 < (hello ++ hashes).length / 5 ∧ holdsGroup defaultConfig.alphabet (hello ++ hashes) 0 ⟨43, 14, 21, 21, 24⟩ ∧
    holdsGroup defaultConfig.alphabet (hello ++ hashes) 1 ⟨84, 84, 84, 84, 84⟩ :=
  ⟨by decide, by decide, by decide, by decide, by unfold holdsGroup; decide, by unfold holdsGroup; decide⟩

theorem witness_LengthLaws : encodeFrame defaultConfig helloWorldOctets = .ok helloWorld ∧
    decodeFrame defaultConfig helloWorld = .ok helloWorldOctets := by decide

/-- MAX_LEN exactly 40. -/
theorem witness_SourceVectorsHoldForEveryAdmissibleAlphabet :
    admissible (under .wrapExact (some 40)).cfg.alphabet = true ∧
    accepts (under .wrapExact (some 40)).cfg (sourceText.flatMap textFrame) = true := by decide

/-- Every operation answers a next state on some operand. -/
theorem witness_ExecChangesOnlyItsOwnPort : (∃ t, exec (.encode helloOctets) State.reset = .next t) ∧
    (∃ t, exec (.decode hello) State.reset = .next t) ∧ (∃ t, exec (.enc32 0xFFFFFFFF#32) State.reset = .next t) ∧
    (∃ t, exec (.dec5 84#7 84#7 84#7 84#7 84#7) State.reset = .next t) ∧ (∃ t, exec (.sym 84#7) State.reset = .next t) ∧
    ∃ t, exec (.val 0xFF#8) State.reset = .next t :=
  ⟨⟨_, rfl⟩, ⟨_, rfl⟩, ⟨_, rfl⟩, ⟨_, rfl⟩, ⟨_, rfl⟩, ⟨_, rfl⟩⟩

/-- Two states that differ in everything but the parameters, with a fault, a refusal and a next state. -/
theorem witness_AnswersDependOnOperandAndParametersOnly :
    (under .fault none).cfg = { under .fault none with hs := .busy ⟨0#1, hello⟩, rst := true }.cfg ∧
    exec (.decode hashes) (under .fault none) = .fault .overflowError ∧
    exec (.sym 127#7) (under .fault none) = .refused .reservedDigit ∧
    ∃ t, exec (.decode hello) (under .fault none) = .next t := ⟨by decide, rfl, rfl, ⟨_, rfl⟩⟩

/-- An operand beside a busy command, one with the handshake waiting, and a busy command with no operand. -/
theorem witness_StepRunsThePresentedOperation : (Instr.sym 84#7).wellFormed = true ∧
    encode (.sym 84#7) = .port (.symV 84#7) ∧
    (∃ t, exec (.sym 84#7) { busyWith ⟨1#1, hello⟩ with probes := [] } = .next t) ∧
    handshakeMoves { State.reset with probes := [.symV 84#7] } = false ∧ (Instr.decode hello).wellFormed = true ∧
    encode (.decode hello) = .command ⟨1#1, hello⟩ ∧ (busyWith ⟨1#1, hello⟩).probes = [] ∧
    (busyWith ⟨1#1, hello⟩).hs = .busy ⟨1#1, hello⟩ ∧ (busyWith ⟨1#1, hello⟩).rst = false :=
  ⟨by decide, by decide, ⟨_, rfl⟩, by decide, by decide, by decide, by decide, by decide, by decide⟩

/-- Words at the ends of each port's range; after reset the handshake waits. -/
theorem witness_TableWordsRunNext : decodeTableWord 8 1 = some (.decode []) ∧ decodeTableWord 8 2 = some (.sym 2#7) ∧
    decodeTableWord 8 84 = some (.sym 84#7) ∧ decodeTableWord 8 85 = some (.val 0x55#8) ∧
    decodeTableWord 8 255 = some (.val 0xFF#8) ∧ decodeTableWord 32 (2 ^ 32 - 1) = some (.enc32 0xFFFFFFFF#32) ∧
    decodeTableWord 40 0x4760716BB = some (.dec5 71#7 48#7 28#7 45#7 59#7) ∧
    handshakeMoves { State.reset with rst := false } = false ∧
    ∃ t, exec (.sym 84#7) { busyWith ⟨1#1, hello⟩ with rst := false } = .next t :=
  ⟨by decide, by decide, by decide, by decide, by decide, by decide, by decide, by decide, ⟨_, rfl⟩⟩

/-- An operand that is answered beside each move of the handshake (accept, compute, deliver, reset) and beside one that
waits; one that has no answer; and a handshake's move that stops, as a fault and as a refusal. -/
theorem witness_PortsAnswerBesideTheHandshake : decodePort (.symV 84#7) = .ok (.sym 84#7) ∧
    portAnswer State.reset (.symV 84#7) = some (.symC 0x23#8) ∧ portAnswer State.reset (.symV 85#7) = none ∧
    (∃ u, step (presented [⟨0#1, helloOctets⟩]) = .next u) ∧ (∃ u, step (busyWith ⟨1#1, hello⟩) = .next u) ∧
    (∃ u, step { respondWith .lengthError with rspReady := true } = .next u) ∧
    (∃ u, step { busyWith ⟨1#1, hello⟩ with rst := true } = .next u) ∧
    handshakeMoves (busyWith ⟨1#1, hello⟩) = true ∧
    handshakeMoves { State.reset with probes := [.symV 85#7, .symV 84#7] } = false ∧
    (∃ r, step { under .fault none with hs := .busy ⟨1#1, hashes⟩ } = .fault r) ∧
    (∃ r, step { under .fault (some 3) with cmds := [⟨1#1, hashes⟩] } = .refused r) :=
  ⟨rfl, by decide, by decide, ⟨_, rfl⟩, ⟨_, rfl⟩, ⟨_, rfl⟩, ⟨_, rfl⟩, rfl, rfl, ⟨_, rfl⟩, ⟨_, rfl⟩⟩

theorem witness_IdleAcceptsTheOldestCommand : (presented [⟨0#1, helloOctets⟩, ⟨1#1, hello⟩]).rst = false ∧
    (presented [⟨0#1, helloOctets⟩, ⟨1#1, hello⟩]).probes = [] ∧ (presented [⟨0#1, helloOctets⟩, ⟨1#1, hello⟩]).hs = .idle ∧
    accepts (presented []).cfg helloOctets = true ∧ (presented []).cmds = [] ∧ (presented []).hs = .idle := by decide

theorem witness_RespondDeliversWhenTheHostIsReady : (respondWith .lengthError).rst = false ∧
    (respondWith .lengthError).probes = [] ∧ (respondWith .lengthError).hs = .respond .lengthError ∧
    (respondWith .lengthError).rspReady = false ∧ { respondWith .lengthError with rspReady := true }.rspReady = true := by
  decide

/-- With an operand on a port, which is answered, and with none. -/
theorem witness_ResetInputIdlesAndDoesNothingElse : { busyWith ⟨1#1, hello⟩ with rst := true }.rst = true ∧
    { busyWith ⟨1#1, hello⟩ with rst := true }.probes = [] ∧
    ∃ t, step { busyWith ⟨1#1, hello⟩ with rst := true, probes := [.valC 0x48#8] } = .next t ∧ t.probes = [] :=
  ⟨rfl, rfl, ⟨_, rfl, rfl⟩⟩

/-- A step that takes a command and one that does not. -/
theorem witness_CommandsWaitUntilIdle : (∃ t, step (presented [⟨0#1, helloOctets⟩]) = .next t ∧ t.cmds = []) ∧
    ∃ t, step { busyWith ⟨1#1, hello⟩ with cmds := [⟨0#1, helloOctets⟩] } = .next t ∧ t.cmds = [⟨0#1, helloOctets⟩] :=
  ⟨⟨_, rfl, rfl⟩, ⟨_, rfl, rfl⟩⟩

/-- A step that delivers nothing, and one that delivers a response and gives a port result. -/
theorem witness_ParametersNeverChangeAndNothingReadIsTakenBack : (∃ t, step State.reset = .next t) ∧
    ∃ t, step { respondWith .lengthError with rspReady := true, probes := [.valC 0x48#8] } = .next t ∧
      t.responses = [.lengthError] ∧ t.probes = [] := ⟨⟨_, rfl⟩, ⟨_, rfl, rfl, rfl⟩⟩

theorem witness_AcceptComputeDeliverIsOneAtomicOperation : (presented [⟨1#1, hello⟩]).rst = false ∧
    (presented [⟨1#1, hello⟩]).rspReady = true ∧ (presented [⟨1#1, hello⟩]).probes = [] ∧
    (presented [⟨1#1, hello⟩]).hs = .idle ∧ accepts (presented []).cfg hello = true ∧
    responseTo (presented []).cfg ⟨1#1, hello⟩ = some (.ok helloOctets) := by decide

/-- P2: failing commands among the others. -/
def failingAndNot : List Command := [⟨1#1, ascii ['f', 'o', 'u', 'r']⟩, ⟨1#1, ascii ['~', '~', '~', '~', '~']⟩, ⟨1#1, hello⟩]

theorem witness_ARunAnswersEveryCommand : (presented failingAndNot).rst = false ∧
    (presented failingAndNot).rspReady = true ∧ (presented failingAndNot).probes = [] ∧ (presented failingAndNot).hs = .idle ∧
    (presented failingAndNot).cfg.overflow ≠ .fault ∧
    ∀ c ∈ (presented failingAndNot).cmds, accepts (presented failingAndNot).cfg c.input = true := by decide

/-- A run that presents two commands and delivers the first response while the second waits. -/
def twoCommands : List Event := [.host (.presentCommand ⟨1#1, hello⟩), .tick, .host (.presentCommand ⟨0#1, helloOctets⟩), .tick,
  .host (.setRspReady true), .tick]

theorem witness_ResponsesComeInTheOrderOfAcceptance : State.reset.hs = .idle ∧ State.reset.rst = false ∧
    assertsRst twoCommands = false ∧
    ∃ t, runEvents twoCommands State.reset = .next t ∧ t.responses = [.ok helloOctets] ∧ t.cmds = [⟨0#1, helloOctets⟩] :=
  ⟨rfl, rfl, rfl, ⟨_, rfl, rfl, rfl⟩⟩

/-- A safe state with everything under way, and a busy command within MAX_LEN beside a reserved digit code. -/
theorem witness_SafeStatesRunOnForEver :
    Safe { busyWith ⟨1#1, hello⟩ with cmds := failingAndNot, probes := [.symV 84#7] } ∧
    { busyWith ⟨1#1, hello⟩ with probes := [.symV 85#7] }.cfg.overflow ≠ .fault ∧
    { busyWith ⟨1#1, hello⟩ with probes := [.symV 85#7] }.rst = false ∧ accepts (busyWith ⟨1#1, hello⟩).cfg hello = true := by
  refine ⟨⟨by decide, fun _ _ => rfl, fun _ _ => rfl, fun p hp => ?_⟩, by decide, by decide, by decide⟩
  obtain rfl := List.mem_singleton.1 hp
  exact ⟨.sym 84#7, rfl⟩

/-- The invariant of a state with an operation under way and results handed over, which a step leaves. -/
theorem witness_EveryStepKeepsTheInvariant :
    Inv { busyWith ⟨1#1, hello⟩ with responses := [.ok helloWorld, .invalidCharacter 0x7E#8 0], portResults := [.symC 0x23#8] } ∧
    ∃ t, step { busyWith ⟨1#1, hello⟩ with
      responses := [.ok helloWorld, .invalidCharacter 0x7E#8 0], portResults := [.symC 0x23#8] } = .next t :=
  ⟨⟨by decide, by decide, by decide, by decide⟩, ⟨_, rfl⟩⟩

theorem witness_ResponsePortShowsTheShapeOfTheResponse : (respondWith (.ok hello)).hs = .respond (.ok hello) ∧
    (respondWith .lengthError).hs = .respond .lengthError ∧
    (respondWith (.invalidCharacter 0x7E#8 0)).hs = .respond (.invalidCharacter 0x7E#8 0) ∧
    ∃ p, responsePins (respondWith .lengthError) = some p := ⟨rfl, rfl, rfl, ⟨_, rfl⟩⟩

/-- Two instances that share the default alphabet, both of which can step. -/
theorem witness_InstancesDoNotInterfere : (0 : Nat) ≠ 1 ∧ sharesAlphabet [busyWith ⟨1#1, hello⟩, State.reset] defaultAlphabet ∧
    ∃ one both, stepAt 0 [busyWith ⟨1#1, hello⟩, State.reset] = .next one ∧ stepAt 1 one = .next both := by
  refine ⟨by decide, fun s hs => ?_, ⟨_, _, rfl, rfl⟩⟩
  rcases List.mem_pair.1 hs with rfl | rfl <;> rfl

/-- One state of work in each phase, the last at the bound of the group index. -/
theorem witness_PhasesNeverGoBack : startWork.phase = .notValidated ∧
    (runMicro defaultConfig ⟨1#1, hello⟩ 1 startWork).phase = .inProgress ∧
    (runMicro defaultConfig ⟨1#1, hello⟩ 2 startWork).g = groupCount ⟨1#1, hello⟩ ∧
    (runMicro defaultConfig ⟨1#1, hello⟩ 3 startWork).phase = .complete ∧
    (runMicro defaultConfig ⟨0#1, hello⟩ 1 startWork).phase = .failed := by decide

end Sys2Proof.Tests
end

section
/-! SUPPORT. Everything an operation can do, decided by its operands and the parameters alone (R13, R23, R95). -/

namespace Sys2Proof.Machine

/-- `u` is an update that operation `i` may make: a response for a frame command, one result of the operation's own
port for the others (R56, R58). -/
def IsOwnUpdate (i : Instr) (u : State → State) : Prop :=
  match i with
  | .encode _ => ∃ r, u = present r
  | .decode _ => ∃ r, u = present r
  | .enc32 _ => ∃ d, u = reply (.encD d)
  | .dec5 _ _ _ _ _ => ∃ w, u = reply (.decW w)
  | .sym _ => ∃ c, u = reply (.symC c)
  | .val _ => ∃ v, u = reply (.valD v)

/-- Whichever operation makes it, an own update presents a response or appends a port result. -/
theorem IsOwnUpdate.present_or_reply {i : Instr} {u : State → State} (h : IsOwnUpdate i u) :
    (∃ r, u = present r) ∨ ∃ r, u = reply r := by
  cases i with
  | encode _ | decode _ => exact .inl h
  | enc32 _ | dec5 _ _ _ _ _ | sym _ | val _ =>
    obtain ⟨_, rfl⟩ := h
    exact .inr ⟨_, rfl⟩

/-- Under the parameters `cfg`, `i` has one meaning in every state: an own update, a fault, or a refusal. -/
def ActsUnder (cfg : Config) (i : Instr) : Prop :=
  (∃ u, IsOwnUpdate i u ∧ ∀ s : State, s.cfg = cfg → exec i s = .next (u s)) ∨
  (∃ f, ∀ s : State, s.cfg = cfg → exec i s = .fault f) ∨
  ∃ f, ∀ s : State, s.cfg = cfg → exec i s = .refused f

/-- A result of a frame operation is answered by one response or by one fault, whatever the state. -/
theorem answer_cases (r : Except Raise Frame) :
    (∃ p, ∀ s, answer r s = .next (present p s)) ∨ ∃ f, ∀ s, answer r s = .fault f := by
  rcases r with (_ | ⟨c, p⟩ | _) | out
  · exact .inl ⟨.lengthError, fun _ => rfl⟩
  · exact .inl ⟨.invalidCharacter c p, fun _ => rfl⟩
  · exact .inr ⟨.overflowError, fun _ => rfl⟩
  · exact .inl ⟨.ok out, fun _ => rfl⟩

theorem actsUnder_decodeCommand (cfg : Config) (c : Command)
    (hown : ∀ r, IsOwnUpdate (decodeCommand c) (present r)) : ActsUnder cfg (decodeCommand c) := by
  by_cases ha : accepts cfg c.input = true
  · have hexec : ∀ s : State, s.cfg = cfg → exec (decodeCommand c) s = answer (resultOf cfg c) s := by
      rintro s rfl
      rw [exec_decodeCommand, if_pos ha]
    rcases answer_cases (resultOf cfg c) with ⟨r, hr⟩ | ⟨f, hf⟩
    · exact .inl ⟨present r, hown r, fun s h => (hexec s h).trans (hr s)⟩
    · exact .inr (.inl ⟨f, fun s h => (hexec s h).trans (hf s)⟩)
  · refine .inr (.inr ⟨.frameTooLong, ?_⟩)
    rintro s rfl
    rw [exec_decodeCommand, if_neg ha]

theorem actsUnder_dec5 (cfg : Config) (d0 d1 d2 d3 d4 : BitVec 7) : ActsUnder cfg (.dec5 d0 d1 d2 d3 d4) := by
  cases hd : fieldsGroup d0 d1 d2 d3 d4 with
  | none => exact .inr (.inr ⟨.reservedDigit, fun s _ => by simp only [exec, execDec5, hd]⟩)
  | some d =>
    cases hu : dec5Under cfg.overflow d with
    | ok w => exact .inl ⟨reply (.decW w), ⟨w, rfl⟩, fun s h => by simp only [exec, execDec5, hd, h, hu]⟩
    | error e =>
      obtain rfl := dec5Under_error hu
      exact .inr (.inl ⟨.overflowError, fun s h => by simp only [exec, execDec5, hd, h, hu, raiseError]⟩)

theorem actsUnder_sym (cfg : Config) (v : BitVec 7) : ActsUnder cfg (.sym v) := by
  cases hv : fieldDigit v with
  | none => exact .inr (.inr ⟨.reservedDigit, fun s _ => by simp only [exec, execSym, hv]⟩)
  | some d =>
    exact .inl ⟨reply (.symC (symOf cfg.alphabet d)), ⟨_, rfl⟩, fun s h => by simp only [exec, execSym, hv, h]⟩

/-- All that an operation can do, which its operands and the parameters alone decide. -/
theorem exec_actsUnder (cfg : Config) (i : Instr) : ActsUnder cfg i := by
  cases i with
  | encode input => exact actsUnder_decodeCommand cfg ⟨0#1, input⟩ fun r => ⟨r, rfl⟩
  | decode input => exact actsUnder_decodeCommand cfg ⟨1#1, input⟩ fun r => ⟨r, rfl⟩
  | enc32 w => exact .inl ⟨reply (.encD (packGroup (enc32 w))), ⟨_, rfl⟩, fun _ _ => rfl⟩
  | dec5 d0 d1 d2 d3 d4 => exact actsUnder_dec5 cfg d0 d1 d2 d3 d4
  | sym v => exact actsUnder_sym cfg v
  | val c =>
    exact .inl ⟨reply (.valD (valOf cfg.alphabet c)), ⟨_, rfl⟩, fun s h => by simp only [exec, execVal, h]⟩

/-- An operation that answers a next state has made one of its own updates. -/
theorem exec_next_ownUpdate {i : Instr} {s t : State} (h : exec i s = .next t) : ∃ u, IsOwnUpdate i u ∧ t = u s := by
  rcases exec_actsUnder s.cfg i with ⟨u, hu, hexec⟩ | ⟨f, hf⟩ | ⟨f, hf⟩
  · exact ⟨u, hu, Host.Outcome.next.inj (h.symm.trans (hexec s rfl))⟩
  · cases h.symm.trans (hf s rfl)
  · cases h.symm.trans (hf s rfl)

/-- Settles O37: an operation that answers has made one of its own updates. -/
theorem execChangesOnlyItsOwnPort : Obligations.ExecChangesOnlyItsOwnPort := by
  intro i s t h
  obtain ⟨u, hu, rfl⟩ := exec_next_ownUpdate h
  cases i with
  | encode _ | decode _ | enc32 _ | dec5 _ _ _ _ _ | sym _ | val _ =>
    obtain ⟨r, rfl⟩ := hu
    exact ⟨r, rfl⟩

/-- An own update is the same response, or the same port result, from any two states. -/
theorem IsOwnUpdate.same_answer {i : Instr} {u : State → State} (h : IsOwnUpdate i u) (s1 s2 : State) :
    ((u s1).hs = (u s2).hs ∨ ((u s1).hs = s1.hs ∧ (u s2).hs = s2.hs)) ∧
    ∃ rs : List PortResult,
      (u s1).portResults = s1.portResults ++ rs ∧ (u s2).portResults = s2.portResults ++ rs := by
  rcases h.present_or_reply with ⟨r, rfl⟩ | ⟨r, rfl⟩
  · exact ⟨.inl rfl, [], by simp, by simp⟩
  · exact ⟨.inr ⟨rfl, rfl⟩, [r], rfl, rfl⟩

/-- Settles O38: two states with equal parameters share the one meaning the operation has under them. -/
theorem answersDependOnOperandAndParametersOnly : Obligations.AnswersDependOnOperandAndParametersOnly := by
  intro i s1 s2 hcfg
  rcases exec_actsUnder s1.cfg i with ⟨u, hu, hexec⟩ | ⟨f, hf⟩ | ⟨f, hf⟩
  · rw [hexec s1 rfl, hexec s2 hcfg.symm]
    refine ⟨nofun, nofun, fun t1 h1 => ?_⟩
    cases h1
    exact ⟨u s2, rfl, hu.same_answer s1 s2⟩
  · rw [hf s1 rfl, hf s2 hcfg.symm]
    exact ⟨fun _ h => h, nofun, nofun⟩
  · rw [hf s1 rfl, hf s2 hcfg.symm]
    exact ⟨nofun, fun _ h => h, nofun⟩

end Sys2Proof.Machine
end

section
/-! SUPPORT. What no step changes, and what it may add to what the host has read (R14, R18, R24, R117, R125). -/

namespace Sys2Proof.Machine

@[simp] theorem servePorts_portResults (s : State) :
    (servePorts s).portResults = s.portResults ++ s.probes.filterMap (portAnswer s) := rfl
@[simp] theorem servePorts_probes (s : State) :
    (servePorts s).probes = s.probes.filter (fun p => (portAnswer s p).isNone) := rfl

/-- A step changes none of the parameters and inputs, and its operands and port results are what the ports leave. -/
theorem step_keeps {s t : State} (h : step s = .next t) :
    t.cfg = s.cfg ∧ t.rst = s.rst ∧ t.rspReady = s.rspReady ∧
      t.probes = (servePorts s).probes ∧ t.portResults = (servePorts s).portResults := by
  rcases step_cases h with hb | rfl
  · exact stepBlock_keeps hb
  · exact ⟨rfl, rfl, rfl, rfl, rfl⟩

/-- From `s` to `t` no response is delivered, or the presented one is, with `rsp_ready`, and the block is `IDLE`. -/
def DeliversAtMostThePresented (s t : State) : Prop :=
  t.responses = s.responses ∨
    ∃ r : Response, s.hs = .respond r ∧ s.rst = false ∧ s.rspReady = true ∧ t.hs = .idle ∧
      t.responses = s.responses ++ [r]

theorem stepBlock_delivers {s t : State} (h : stepBlock s = .next t) : DeliversAtMostThePresented s t := by
  rcases stepBlock_cases h with ⟨-, rfl⟩ | ⟨-, -, -, rfl⟩ | ⟨-, -, c, rest, -, -, rfl⟩ | ⟨-, c, -, -, r, -, rfl⟩ |
    ⟨hrst, r, hhs, hready, rfl⟩ | ⟨-, r, -, -, rfl⟩
  case inr.inr.inr.inr.inl => exact .inr ⟨r, hhs, hrst, hready, rfl, rfl⟩
  all_goals exact .inl rfl

theorem step_delivers {s t : State} (h : step s = .next t) : DeliversAtMostThePresented s t := by
  rcases step_cases h with hb | rfl
  · simpa only [DeliversAtMostThePresented, servePorts_hs, servePorts_rst, servePorts_rspReady, servePorts_responses]
      using stepBlock_delivers hb
  · exact .inl rfl

/-- Settles O46: what a step keeps, what it delivers, and what the ports leave. -/
theorem parametersNeverChangeAndNothingReadIsTakenBack :
    Obligations.ParametersNeverChangeAndNothingReadIsTakenBack := by
  intro s t h
  obtain ⟨hcfg, hrst, hready, hprobes, hresults⟩ := step_keeps h
  exact ⟨hcfg, hrst, hready, step_delivers h, hresults, hprobes⟩

end Sys2Proof.Machine
end

section
/-! SUPPORT. Several blocks side by side: what a step of one of them is, and what it leaves alone (R25, R114). -/

namespace Sys2Proof.Machine

theorem stepAt_of_none {k : Nat} {sys : System} (h : sys[k]? = none) : stepAt k sys = .next sys := by
  rw [stepAt, h]

theorem stepAt_of_step {k : Nat} {sys : System} {s t : State} (hs : sys[k]? = some s) (h : step s = .next t) :
    stepAt k sys = .next (sys.set k t) := by
  simp only [stepAt, hs, h]

/-- All that a step of one place of the system can do, when it answers. -/
theorem stepAt_cases {k : Nat} {sys sys' : System} (h : stepAt k sys = .next sys') :
    (sys[k]? = none ∧ sys' = sys) ∨ ∃ s t, sys[k]? = some s ∧ step s = .next t ∧ sys' = sys.set k t := by
  cases hs : sys[k]? with
  | none =>
    rw [stepAt_of_none hs] at h
    exact .inl ⟨rfl, (Host.Outcome.next.inj h).symm⟩
  | some s =>
    simp only [stepAt, hs] at h
    split at h
    · cases h
      exact .inr ⟨s, _, rfl, ‹_›, rfl⟩
    · cases h
    · cases h

theorem stepAt_length {k : Nat} {sys sys' : System} (h : stepAt k sys = .next sys') : sys'.length = sys.length := by
  rcases stepAt_cases h with ⟨-, rfl⟩ | ⟨s, t, -, -, rfl⟩
  · rfl
  · exact List.length_set

theorem stepAt_getElem?_ne {j k : Nat} {sys sys' : System} (h : stepAt k sys = .next sys') (hjk : j ≠ k) :
    sys'[j]? = sys[j]? := by
  rcases stepAt_cases h with ⟨-, rfl⟩ | ⟨s, t, -, -, rfl⟩
  · rfl
  · exact List.getElem?_set_ne hjk.symm

theorem stepAt_sharesAlphabet {k : Nat} {sys sys' : System} {a : Alphabet} (h : stepAt k sys = .next sys')
    (ha : sharesAlphabet sys a) : sharesAlphabet sys' a := by
  rcases stepAt_cases h with ⟨-, rfl⟩ | ⟨s, t, hs, hst, rfl⟩
  · exact ha
  · intro x hx
    rcases List.mem_or_eq_of_mem_set hx with hx | rfl
    · exact ha x hx
    · obtain ⟨hcfg, -⟩ := step_keeps hst
      rw [hcfg]
      exact ha s (List.mem_of_getElem? hs)

/-- Steps of two places commute: each reads its own place, which the other leaves alone. -/
theorem stepAt_comm {j k : Nat} {sys one both : System} (hjk : j ≠ k) (h1 : stepAt j sys = .next one)
    (h2 : stepAt k one = .next both) : ∃ other : System, stepAt k sys = .next other ∧ stepAt j other = .next both := by
  have hk : one[k]? = sys[k]? := stepAt_getElem?_ne h1 hjk.symm
  rcases stepAt_cases h2 with ⟨hnone, rfl⟩ | ⟨u, v, hu, huv, rfl⟩
  · exact ⟨sys, stepAt_of_none (hk ▸ hnone), h1⟩
  · refine ⟨sys.set k v, stepAt_of_step (hk ▸ hu) huv, ?_⟩
    have hj : (sys.set k v)[j]? = sys[j]? := List.getElem?_set_ne hjk.symm
    rcases stepAt_cases h1 with ⟨hnone, rfl⟩ | ⟨s, t, hs, hst, rfl⟩
    · exact stepAt_of_none (hj ▸ hnone)
    · rw [List.set_comm _ _ hjk]
      exact stepAt_of_step (hj ▸ hs) hst

/-- Settles O55: a step writes its own place of the system only, and keeps the parameters there. -/
theorem instancesDoNotInterfere : Obligations.InstancesDoNotInterfere :=
  ⟨fun _ _ _ h => ⟨stepAt_length h, fun _ hj => stepAt_getElem?_ne h hj, fun _ ha => stepAt_sharesAlphabet h ha⟩,
    fun _ _ _ _ _ hjk h1 h2 => stepAt_comm hjk h1 h2⟩

end Sys2Proof.Machine
end

section
/-! SUPPORT. The state after reset (R24, R51 to R53). -/

namespace Sys2Proof.Machine

theorem admissible_defaultAlphabet : admissible defaultAlphabet = true := by decide

theorem meetsSource_of_admissible {a : Alphabet} (h : admissible a = true) : meetsSource a = true := by
  rw [admissible, Bool.and_eq_true] at h
  obtain ⟨hsource, -⟩ := h
  exact hsource

/-- Nothing is in progress, presented or given after reset, so the alphabet alone decides the invariant. -/
theorem inv_reset : Inv State.reset where
  alphabet := meetsSource_of_admissible admissible_defaultAlphabet
  handshake := rfl
  responses := rfl
  portResults := rfl

theorem safe_reset : Safe State.reset where
  policy := nofun
  accepted := nofun
  commands := nofun
  operands := nofun

/-- Settles O52: the invariant and safety of the reset state, and its fields as the definition gives them. -/
theorem resetStateMeetsTheInvariant : Obligations.ResetStateMeetsTheInvariant :=
  ⟨inv_reset, safe_reset, rfl, rfl, rfl, rfl, rfl, rfl, rfl, rfl, rfl, rfl, admissible_defaultAlphabet, rfl, rfl⟩

end Sys2Proof.Machine
end

section
/-! SUPPORT. ENC32 as the base-85 expansion of its word, and the group word that carries it (R47, R82, R83). -/

namespace Sys2Proof.Machine

/-- Five digits are enough for a word: the value of its group is the word itself (R82). -/
theorem valueOf_enc32 (w : Word) : valueOf (enc32 w) = w.toNat := by
  have hw := w.isLt
  simp only [valueOf, enc32, remainder_val, quotient_toNat]
  omega

/-- The image of ENC32 holds no overflowing group (R83). -/
theorem enc32_not_overflows (w : Word) : overflows (enc32 w) = false := by
  rw [overflows, decide_eq_false_iff_not, valueOf_enc32, Nat.not_le]
  exact w.isLt

theorem fieldsGroup_digitField (d : Group) : fieldsGroup (digitField d.d0) (digitField d.d1) (digitField d.d2)
    (digitField d.d3) (digitField d.d4) = some d := by
  simp only [fieldsGroup, fieldDigit_digitField]

/-- A packed group that does not overflow is a legal result: its fields are digits, and they are the group again. -/
theorem portResultLegal_packGroup (a : Alphabet) {d : Group} (h : overflows d = false) :
    portResultLegal a (.encD (packGroup d)) = true := by
  obtain ⟨h0, h1, h2, h3, h4⟩ := Instr.dec5.inj (unpackFields_packFields (digitField d.d0) (digitField d.d1)
    (digitField d.d2) (digitField d.d3) (digitField d.d4))
  simp only [portResultLegal, packGroup, h0, h1, h2, h3, h4, fieldsGroup_digitField, h, Bool.not_false]

end Sys2Proof.Machine
end

section
/-! SUPPORT. What the frame operations answer is legal: ENCODE gives a text frame, DECODE a binary frame, and the only
character DECODE reports is a non-member (R28, R29, R67, R76, R100). -/

namespace Sys2Proof.Machine

theorem encBlk_members (a : Alphabet) (b : Block) : ∀ c ∈ textFrame (encBlk a b), isMember a c = true := by
  simp only [textFrame, encBlk, List.forall_mem_cons, valOf_isSome, List.not_mem_nil, false_imp_iff, implies_true,
    and_self]

theorem encodeFrame_isTextFrame {cfg : Config} {f out : Frame} (h : encodeFrame cfg f = .ok out) :
    isTextFrame cfg.alphabet out = true := by
  obtain ⟨-, rfl⟩ := encodeFrame_ok h
  refine isTextFrame_iff.2 ⟨?_, fun c hc => ?_⟩
  · rw [flatMap_length_of_pieces _ _ 5 fun _ => rfl]
    exact Nat.mul_mod_right 5 _
  · obtain ⟨b, -, hcb⟩ := List.mem_flatMap.1 hc
    exact encBlk_members cfg.alphabet b c hcb

theorem decodeGroups_length {cfg : Config} {ts : List TextGroup} {base : Nat} {out : Frame}
    (h : decodeGroups cfg ts base = .ok out) : out.length = 4 * ts.length := by
  induction ts generalizing base out with
  | nil => cases h; rfl
  | cons t ts ih =>
    obtain ⟨b, rest, -, hrest, rfl⟩ := decodeGroups_cons_ok h
    rw [List.length_append, blockFrame_length, ih hrest, List.length_cons]
    omega

theorem decodeFrame_isBinaryFrame {cfg : Config} {f out : Frame} (h : decodeFrame cfg f = .ok out) :
    isBinaryFrame out = true := by
  obtain ⟨-, hgroups⟩ := decodeFrame_ok h
  rw [isBinaryFrame, decodeGroups_length hgroups, Nat.mul_mod_right, beq_self_eq_true]

/-- Where `x` reports a character as invalid, it is a non-member. -/
def ReportsOnlyNonMembers {α : Type} (a : Alphabet) (x : Except Raise α) : Prop :=
  ∀ c p, x = .error (.invalidCharacter c p) → isMember a c = false

theorem ReportsOnlyNonMembers.ok {α : Type} (a : Alphabet) (v : α) : ReportsOnlyNonMembers a (.ok v) := nofun

/-- In sequence, as `do` puts them, the reports are those of the parts. -/
theorem ReportsOnlyNonMembers.bind {α β : Type} {a : Alphabet} {x : Except Raise α} {f : α → Except Raise β}
    (hx : ReportsOnlyNonMembers a x) (hf : ∀ v, ReportsOnlyNonMembers a (f v)) :
    ReportsOnlyNonMembers a (x >>= f) := by
  cases x with
  | ok v => exact hf v
  | error e =>
    intro c p h
    cases h
    exact hx c p rfl

theorem digitAt_reports (a : Alphabet) (c : Byte) (p : Nat) : ReportsOnlyNonMembers a (digitAt a c p) := by
  rcases digitAt_cases a c p with ⟨v, -, hok⟩ | ⟨hnone, herr⟩
  · rw [hok]
    exact .ok a v
  · rw [herr]
    intro c' p' h
    cases h
    rw [isMember, hnone, Option.isSome_none]

theorem groupDigits_reports (a : Alphabet) (t : TextGroup) (base : Nat) :
    ReportsOnlyNonMembers a (groupDigits a t base) :=
  (digitAt_reports a _ _).bind fun _ => (digitAt_reports a _ _).bind fun _ => (digitAt_reports a _ _).bind fun _ =>
    (digitAt_reports a _ _).bind fun _ => (digitAt_reports a _ _).bind fun _ => .ok a _

theorem dec5Under_reports (a : Alphabet) (p : OverflowPolicy) (d : Group) :
    ReportsOnlyNonMembers a (dec5Under p d) := by
  intro c k h
  cases dec5Under_error h

theorem decGrp_reports (cfg : Config) (t : TextGroup) (base : Nat) :
    ReportsOnlyNonMembers cfg.alphabet (decGrp cfg t base) :=
  (groupDigits_reports _ t base).bind fun d => (dec5Under_reports _ _ d).bind fun _ => .ok _ _

theorem decodeGroups_reports (cfg : Config) (ts : List TextGroup) (base : Nat) :
    ReportsOnlyNonMembers cfg.alphabet (decodeGroups cfg ts base) := by
  induction ts generalizing base with
  | nil => exact .ok _ _
  | cons t ts ih => exact (decGrp_reports cfg t base).bind fun _ => (ih (base + 5)).bind fun _ => .ok _ _

theorem encodeFrame_reports (cfg : Config) (f : Frame) :
    ReportsOnlyNonMembers cfg.alphabet (encodeFrame cfg f) := by
  rw [encodeFrame]
  split
  · exact .ok _ _
  · exact nofun

theorem decodeFrame_reports (cfg : Config) (f : Frame) :
    ReportsOnlyNonMembers cfg.alphabet (decodeFrame cfg f) := by
  rw [decodeFrame]
  split
  · exact decodeGroups_reports cfg _ _
  · exact nofun

theorem resultOf_reports (cfg : Config) (c : Command) : ReportsOnlyNonMembers cfg.alphabet (resultOf cfg c) := by
  rw [resultOf]
  split
  · exact encodeFrame_reports cfg c.input
  · exact decodeFrame_reports cfg c.input

theorem resultOf_ok_legal {cfg : Config} {c : Command} {out : Frame} (h : resultOf cfg c = .ok out) :
    responseLegal cfg.alphabet (.ok out) = true := by
  rw [responseLegal, Bool.or_eq_true]
  rw [resultOf] at h
  split at h
  · exact .inl (encodeFrame_isTextFrame h)
  · exact .inr (decodeFrame_isBinaryFrame h)

/-- The response to a command is legal, whatever its frame holds. -/
theorem responseTo_legal {cfg : Config} {c : Command} {r : Response} (h : responseTo cfg c = some r) :
    responseLegal cfg.alphabet r = true := by
  rw [responseTo] at h
  split at h
  next out hres =>
    cases h
    exact resultOf_ok_legal hres
  next =>
    cases h
    rfl
  next ch p hres =>
    cases h
    rw [responseLegal, resultOf_reports cfg c ch p hres, Bool.not_false]
  next => cases h

end Sys2Proof.Machine
end

section
/-! SUPPORT. The invariant through the operations, the ports and the handshake (R28, R29, R37, R46, R51). -/

namespace Sys2Proof.Machine

theorem Inv.present {s : State} (hs : Inv s) {r : Response} (hr : responseLegal s.cfg.alphabet r = true) :
    Inv (present r s) :=
  { hs with handshake := hr }

theorem Inv.reply {s : State} (hs : Inv s) {r : PortResult} (hr : portResultLegal s.cfg.alphabet r = true) :
    Inv (reply r s) :=
  { hs with portResults := by simp [hs.portResults, hr] }

theorem exec_decodeCommand_keeps_inv {c : Command} {s t : State} (hs : Inv s)
    (h : exec (decodeCommand c) s = .next t) : Inv t := by
  obtain ⟨-, r, hr, rfl⟩ := exec_decodeCommand_next h
  exact hs.present (responseTo_legal hr)

/-- Each operation presents a legal response or gives a legal result. -/
theorem exec_keeps_inv {i : Instr} {s t : State} (hs : Inv s) (h : exec i s = .next t) : Inv t := by
  cases i with
  | encode input => exact exec_decodeCommand_keeps_inv (c := ⟨0#1, input⟩) hs h
  | decode input => exact exec_decodeCommand_keeps_inv (c := ⟨1#1, input⟩) hs h
  | enc32 w =>
    cases h
    exact hs.reply (portResultLegal_packGroup _ (enc32_not_overflows w))
  | dec5 d0 d1 d2 d3 d4 =>
    obtain ⟨-, w, -, -, rfl⟩ := execDec5_next h
    exact hs.reply rfl
  | sym v =>
    rw [exec, execSym] at h
    split at h
    next => cases h
    next d _ =>
      cases h
      exact hs.reply (valOf_isSome s.cfg.alphabet d)
  | val c =>
    cases h
    exact hs.reply rfl

/-- A port's answer is the result its operation gives, so the invariant of that operation's state makes it legal. -/
theorem portAnswer_legal {s : State} {p : PortWord} {r : PortResult} (hs : Inv s) (h : portAnswer s p = some r) :
    portResultLegal s.cfg.alphabet r = true := by
  rcases portAnswer_cases s p with ⟨i, r', -, hr', hexec⟩ | ⟨hnone, -⟩
  · obtain rfl := Option.some.inj (h.symm.trans hr')
    obtain ⟨-, hnext⟩ := hexec s rfl
    exact List.all_eq_true.1 (exec_keeps_inv hs hnext).portResults r (by simp)
  · cases h.symm.trans hnone

theorem servePorts_keeps_inv {s : State} (hs : Inv s) : Inv (servePorts s) where
  alphabet := hs.alphabet
  handshake := hs.handshake
  responses := hs.responses
  portResults := by
    have hanswers : (s.probes.filterMap (portAnswer s)).all (portResultLegal s.cfg.alphabet) = true := by
      refine List.all_eq_true.2 fun r hr => ?_
      obtain ⟨p, -, hp⟩ := List.mem_filterMap.1 hr
      exact portAnswer_legal hs hp
    rw [servePorts_portResults, servePorts_cfg, List.all_append, hs.portResults, hanswers, Bool.and_self]

/-- Each move of the handshake: only a command within MAX_LEN is accepted, only a legal response is presented, and what
is delivered was presented. -/
theorem stepBlock_keeps_inv {s t : State} (hs : Inv s) (h : stepBlock s = .next t) : Inv t := by
  rcases stepBlock_cases h with ⟨-, rfl⟩ | ⟨-, -, -, rfl⟩ | ⟨-, -, c, rest, -, haccepts, rfl⟩ |
    ⟨-, c, -, -, r, hresponse, rfl⟩ | ⟨-, r, hrespond, -, rfl⟩ | ⟨-, r, -, -, rfl⟩
  · exact { hs with handshake := rfl }
  · exact hs
  · exact { hs with handshake := haccepts }
  · exact hs.present (responseTo_legal hresponse)
  · have hr : responseLegal s.cfg.alphabet r = true := by
      simpa only [hrespond, handshakeLegal] using hs.handshake
    exact { hs with handshake := rfl, responses := by simp [hs.responses, hr] }
  · exact hs

/-- Settles O51: the ports keep the invariant, and so does the handshake's move from what they leave. -/
theorem everyStepKeepsTheInvariant : Obligations.EveryStepKeepsTheInvariant := by
  intro s t hs h
  rcases step_cases h with hblock | rfl
  · exact stepBlock_keeps_inv (servePorts_keeps_inv hs) hblock
  · exact servePorts_keeps_inv hs

end Sys2Proof.Machine
end

section
/-! SUPPORT. The decoder and the encoder undo each other, and a reserved digit code has no meaning (R47, R55, R58, R60). -/

namespace Sys2Proof.Machine

/-- The group word its five fields make is the word they were cut from (R47). -/
theorem encode_unpackFields (d : BitVec 35) : encode (unpackFields d) = .port (.decD d) := by
  have hpack : packFields (d.extractLsb' 28 7) (d.extractLsb' 21 7) (d.extractLsb' 14 7) (d.extractLsb' 7 7)
      (d.extractLsb' 0 7) = d := by
    apply BitVec.eq_of_toNat_eq
    have := d.isLt
    simp only [packFields_toNat, BitVec.extractLsb'_toNat, Nat.shiftRight_eq_div_pow]
    omega
  rw [unpackFields, encode, hpack]

theorem decodePort_packFields (d0 d1 d2 d3 d4 : BitVec 7) : decodePort (.decD (packFields d0 d1 d2 d3 d4)) =
    if (Instr.dec5 d0 d1 d2 d3 d4).wellFormed then .ok (.dec5 d0 d1 d2 d3 d4) else .error .dec5ReservedDigit := by
  rw [decodePort, unpackFields_packFields]

/-- Settles O2: only the formats with digit fields have a check to pass, and well-formedness is that check. -/
theorem decodeUndoesEncode : Obligations.DecodeUndoesEncode := by
  intro i hwf
  cases i with
  | encode _ | decode _ | enc32 _ | val _ => rfl
  | dec5 d0 d1 d2 d3 d4 => rw [encode, decode, decodePort_packFields, if_pos hwf]
  | sym v => exact if_pos hwf

/-- One bit tells the two frame operations apart, so none of it is lost (R55). -/
theorem encode_decodeCommand (c : Command) : encode (decodeCommand c) = .command c := by
  obtain ⟨op, input⟩ := c
  obtain rfl | rfl := BitVec.eq_zero_or_eq_one op <;> rfl

theorem decodeCommand_wellFormed (c : Command) : (decodeCommand c).wellFormed = true := by
  rw [decodeCommand]
  split <;> rfl

/-- What a port word decodes to is legal and encodes to that word. -/
theorem decodePort_ok {p : PortWord} {i : Instr} (h : decodePort p = .ok i) :
    encode i = .port p ∧ i.wellFormed = true := by
  cases p with
  | encW _ | valC _ => cases h; exact ⟨rfl, rfl⟩
  | decD d =>
    rw [decodePort] at h
    split at h
    next hwf => cases h; exact ⟨encode_unpackFields d, hwf⟩
    next => cases h
  | symV v =>
    rw [decodePort] at h
    split at h
    next hwf => cases h; exact ⟨rfl, hwf⟩
    next => cases h

/-- Settles O3: a command has one of two selectors, and a port word passes through its port's check. -/
theorem encodeUndoesDecode : Obligations.EncodeUndoesDecode := by
  intro d i h
  cases d with
  | command c => cases h; exact ⟨encode_decodeCommand c, decodeCommand_wellFormed c⟩
  | port p => exact decodePort_ok h

/-- Settles O1: each word is cut at the format's bit positions and passes or fails the check of its fields. -/
theorem portWordsAreReadAsTheFormatsSay : Obligations.PortWordsAreReadAsTheFormatsSay :=
  ⟨fun _ => rfl, fun _ => rfl, rfl, by decide, by decide, rfl, by decide, by decide⟩

/-- The illegal DEC5 operands, field by field (R60, R80). -/
theorem dec5_wellFormed_eq_false_iff {d0 d1 d2 d3 d4 : BitVec 7} : (Instr.dec5 d0 d1 d2 d3 d4).wellFormed = false ↔
    85 ≤ d0.toNat ∨ 85 ≤ d1.toNat ∨ 85 ≤ d2.toNat ∨ 85 ≤ d3.toNat ∨ 85 ≤ d4.toNat := by
  simp only [Instr.wellFormed, isDigitCode, Bool.and_eq_false_iff, decide_eq_false_iff_not, Nat.not_lt, or_assoc]

/-- One reserved code is enough for five fields to hold no group (R80). -/
theorem fieldsGroup_eq_none {d0 d1 d2 d3 d4 : BitVec 7}
    (h : 85 ≤ d0.toNat ∨ 85 ≤ d1.toNat ∨ 85 ≤ d2.toNat ∨ 85 ≤ d3.toNat ∨ 85 ≤ d4.toNat) :
    fieldsGroup d0 d1 d2 d3 d4 = none := by
  simp only [← fieldDigit_none] at h
  rw [fieldsGroup]
  split
  next h0 h1 h2 h3 h4 => simp [h0, h1, h2, h3, h4] at h
  next => rfl

theorem sym_of_reserved (s : State) {v : BitVec 7} (h : 85 ≤ v.toNat) :
    exec (.sym v) s = .refused .reservedDigit ∧ decode (encode (.sym v)) = .error .symReservedDigit := by
  have hcode : ¬ isDigitCode v = true := by rw [isDigitCode_iff]; omega
  exact ⟨by rw [exec, execSym, fieldDigit_none.2 h], if_neg hcode⟩

theorem dec5_of_reserved (s : State) {d0 d1 d2 d3 d4 : BitVec 7}
    (h : 85 ≤ d0.toNat ∨ 85 ≤ d1.toNat ∨ 85 ≤ d2.toNat ∨ 85 ≤ d3.toNat ∨ 85 ≤ d4.toNat) :
    exec (.dec5 d0 d1 d2 d3 d4) s = .refused .reservedDigit ∧
      decode (encode (.dec5 d0 d1 d2 d3 d4)) = .error .dec5ReservedDigit := by
  have hwf := dec5_wellFormed_eq_false_iff.2 h
  refine ⟨by rw [exec, execDec5, fieldsGroup_eq_none h], ?_⟩
  rw [encode, decode, decodePort_packFields, hwf]
  rfl

theorem portAnswer_of_rejected {s : State} {p : PortWord} {e : Reject} (h : decodePort p = .error e) :
    portAnswer s p = none := by
  rw [portAnswer, h]

/-- A step with only rejected words on the ports: the first is refused, once the handshake waits for the host. -/
theorem step_of_rejected {s : State} (hne : s.probes ≠ []) (hrej : ∀ p ∈ s.probes, ∃ e, decodePort p = .error e) :
    (handshakeMoves s = false → step s = .refused .reservedDigit) ∧
    (∀ t, step s = .next t → handshakeMoves s = true ∧ t.probes = s.probes ∧ t.portResults = s.portResults) := by
  have hsilent : portsAnswer s = false := by
    refine List.any_eq_false.2 fun p hp => ?_
    obtain ⟨e, he⟩ := hrej p hp
    simp [portAnswer_of_rejected he]
  have hstop : handshakeMoves s = false → step s = .refused .reservedDigit := by
    intro hwait
    obtain ⟨p, rest, hp⟩ := List.exists_cons_of_ne_nil hne
    obtain ⟨e, he⟩ := hrej p (by simp [hp])
    rw [step_of_stop hsilent hwait hp, stepProbe, he]
  refine ⟨hstop, fun t ht => ?_⟩
  obtain ⟨-, -, -, hprobes, hresults⟩ := step_keeps ht
  rw [servePorts_of_none hsilent] at hprobes hresults
  refine ⟨?_, hprobes, hresults⟩
  by_contra hmoves
  cases ht.symm.trans (hstop (by simpa using hmoves))

/-- A word without an answer stays where it stands. -/
theorem mem_probes_of_step {s t : State} {p : PortWord} (hp : p ∈ s.probes) (ha : portAnswer s p = none)
    (h : step s = .next t) : p ∈ t.probes := by
  obtain ⟨-, -, -, hprobes, -⟩ := step_keeps h
  rw [hprobes, servePorts_probes]
  exact List.mem_filter.2 ⟨hp, by rw [ha]; rfl⟩

/-- Settles O4: the decoder's and the operation's checks fail together, and a rejected word has no answer. -/
theorem reservedDigitCodesAreRefused : Obligations.ReservedDigitCodesAreRefused :=
  ⟨fun s _ h => sym_of_reserved s h, fun s _ _ _ _ _ h => dec5_of_reserved s h, fun _ hne hrej => step_of_rejected hne hrej,
    fun _ _ _ _ hp he h => mem_probes_of_step hp (portAnswer_of_rejected he) h⟩

end Sys2Proof.Machine
end

section
/-! SUPPORT. A word placed by `withFetchWord`: a command is all that is left to run, and an operand stands alone on its
port (R55, R58, R125; logs 9 and 10). -/

namespace Sys2Proof.Machine

/-- A table word with a meaning stands somewhere, and what stands there decodes to it. -/
theorem decodeTableWord_some {nbits w : Nat} {i : Instr} (h : decodeTableWord nbits w = some i) :
    ∃ d, tableDrive nbits w = some d ∧ decode d = .ok i := by
  rw [decodeTableWord] at h
  split at h
  next => cases h
  next d hd =>
    split at h
    next j hj => cases h; exact ⟨d, hd, hj⟩
    next => cases h

theorem withFetchWord_of_command {nbits w : Nat} {c : Command} (h : tableDrive nbits w = some (.command c)) (s : State) :
    s.withFetchWord nbits w = { s with rst := false, probes := [], hs := .busy c } := by
  rw [State.withFetchWord, h]

theorem withFetchWord_of_port {nbits w : Nat} {p : PortWord} (h : tableDrive nbits w = some (.port p)) (s : State) :
    s.withFetchWord nbits w = { s with rst := false, probes := [p] } := by
  rw [State.withFetchWord, h]

/-- An accepted command with no operand beside it is what the step runs. -/
theorem step_of_busy {s : State} {c : Command} (hrst : s.rst = false) (hp : s.probes = []) (hs : s.hs = .busy c) :
    step s = exec (decodeCommand c) s := by
  rw [step_of_no_operand hp, stepBlock_of_busy hrst hs]

/-- An answered operand that stands alone: the ports take it and give its result. -/
theorem servePorts_of_single {s : State} {p : PortWord} {r : PortResult} (hp : s.probes = [p])
    (ha : portAnswer s p = some r) : servePorts s = reply r { s with probes := [] } := by
  simp [servePorts, reply, hp, ha]

/-- The operation of an operand that stands alone is what the ports do, or it stops and they do nothing. -/
theorem single_operand_cases {s : State} {p : PortWord} {i : Instr} (hp : s.probes = [p]) (hi : decodePort p = .ok i) :
    (portsAnswer s = true ∧ exec i { s with probes := [] } = .next (servePorts s)) ∨
    (portsAnswer s = false ∧ exec i { s with probes := [] } = stepProbe p s ∧ ∀ t, stepProbe p s ≠ .next t) := by
  have hprobe : stepProbe p s = exec i s := by rw [stepProbe, hi]
  have hany : portsAnswer s = (portAnswer s p).isSome := by simp [portsAnswer, hp]
  rw [hany]
  rcases portAnswer_cases s p with ⟨j, r, hj, ha, hexec⟩ | ⟨ha, hstop⟩
  · obtain rfl := Except.ok.inj (hi.symm.trans hj)
    obtain ⟨-, hnext⟩ := hexec { s with probes := [] } rfl
    exact .inl ⟨by rw [ha]; rfl, by rw [hnext, servePorts_of_single hp ha]⟩
  · obtain ⟨-, hstops⟩ := hstop s rfl
    refine .inr ⟨by rw [ha]; rfl, ?_, hstops⟩
    rw [hprobe]
    rcases exec_decodePort_cases hi s.cfg with ⟨r, hr⟩ | ⟨f, hf⟩ | ⟨f, hf⟩
    · exact absurd (hprobe.trans (hr s rfl)) (hstops _)
    · exact (hf { s with probes := [] } rfl).trans (hf s rfl).symm
    · exact (hf { s with probes := [] } rfl).trans (hf s rfl).symm

/-- Where the handshake waits for the host, a step is the operation of the operand that stands alone. -/
theorem step_of_single_waits {s : State} {p : PortWord} {i : Instr} (hp : s.probes = [p]) (hi : decodePort p = .ok i)
    (hwait : handshakeMoves s = false) : step s = exec i { s with probes := [] } := by
  rcases single_operand_cases hp hi with ⟨ha, hexec⟩ | ⟨ha, hexec, -⟩
  · rw [step_of_answer ha, stepBlock_of_waits (s := servePorts s) hwait, hexec]
  · rw [step_of_stop ha hwait hp, hexec]

/-- Beside an operand that stands alone and answers, a step makes the handshake's move from that answer. -/
theorem step_of_single_next {s t u : State} {p : PortWord} {i : Instr} (hp : s.probes = [p])
    (hi : decodePort p = .ok i) (ht : exec i { s with probes := [] } = .next t) (hu : stepBlock t = .next u) :
    step s = .next u := by
  rcases single_operand_cases hp hi with ⟨ha, hexec⟩ | ⟨-, hexec, hstops⟩
  · obtain rfl := Host.Outcome.next.inj (ht.symm.trans hexec)
    rw [step_of_answer ha, hu]
  · exact absurd (hexec.symm.trans ht) (hstops t)

/-- Settles O40: a placed command is the accepted one, a placed operand stands alone. -/
theorem tableWordsRunNext : Obligations.TableWordsRunNext := by
  intro s nbits w i h
  obtain ⟨d, hd, hi⟩ := decodeTableWord_some h
  rw [hd]
  cases d with
  | command c =>
    obtain rfl := Except.ok.inj hi
    rw [withFetchWord_of_command hd]
    exact step_of_busy rfl rfl rfl
  | port p =>
    rw [withFetchWord_of_port hd]
    exact ⟨fun hwait => step_of_single_waits (p := p) rfl hi hwait,
      fun _ _ ht hu => step_of_single_next (p := p) rfl hi ht hu⟩

end Sys2Proof.Machine
end

section
/-! SUPPORT. The output signals, by the shape of the handshake and of the look-up result (R46, R56, R57, R58). -/

namespace Sys2Proof.Machine

theorem cmdReady_iff (s : State) : cmdReady s = true ↔ s.hs = .idle := by
  rw [cmdReady, beq_iff_eq]

theorem cmdValid_iff (s : State) : cmdValid s = true ↔ s.cmds ≠ [] := by
  rw [cmdValid, Bool.not_eq_true', List.isEmpty_eq_false_iff]

/-- The response port carries the status of the presented response, and is valid only then. -/
theorem responsePins_some {s : State} {p : ResponsePins} (h : responsePins s = some p) :
    ∃ r, s.hs = .respond r ∧ p.status = statusOf r := by
  rw [responsePins] at h
  split at h
  next => cases h
  next => cases h
  next r hr => split at h <;> cases h <;> exact ⟨_, hr, rfl⟩

theorem rspValid_iff (s : State) : rspValid s = true ↔ ∃ r, s.hs = .respond r := by
  rw [rspValid, Option.isSome_iff_exists]
  constructor
  · rintro ⟨p, hp⟩
    obtain ⟨r, hr, -⟩ := responsePins_some hp
    exact ⟨r, hr⟩
  · rintro ⟨r, hr⟩
    rw [responsePins, hr]
    cases r <;> exact ⟨_, rfl⟩

theorem responsePins_of_ok {s : State} {out : Frame} (h : s.hs = .respond (.ok out)) :
    ∃ p, responsePins s = some p ∧ p.status = 0#2 ∧ p.out = out ∧ p.outLen = out.length := by
  rw [responsePins, h]
  exact ⟨_, rfl, rfl, rfl, rfl⟩

theorem responsePins_of_lengthError {s : State} (h : s.hs = .respond .lengthError) :
    ∃ p, responsePins s = some p ∧ p.status = 1#2 ∧ p.out = [] ∧ p.outLen = 0 := by
  rw [responsePins, h]
  exact ⟨_, rfl, rfl, rfl, rfl⟩

theorem responsePins_of_invalidCharacter {s : State} {c : Byte} {k : Nat}
    (h : s.hs = .respond (.invalidCharacter c k)) :
    ∃ p, responsePins s = some p ∧ p.status = 2#2 ∧ p.out = [] ∧ p.outLen = 0 ∧ p.errChar = c ∧ p.errPos = k := by
  rw [responsePins, h]
  exact ⟨_, rfl, rfl, rfl, rfl, rfl, rfl⟩

theorem statusOf_ne_reserved (r : Response) : statusOf r ≠ 3#2 := by
  cases r <;> simp [statusOf]

/-- Settles O53: each signal is read off the handshake, and each port off the shape it carries. -/
theorem responsePortShowsTheShapeOfTheResponse : Obligations.ResponsePortShowsTheShapeOfTheResponse := by
  refine ⟨fun s => ⟨cmdReady_iff s, cmdValid_iff s, rspValid_iff s⟩, fun _ _ h => responsePins_of_ok h,
    fun _ h => responsePins_of_lengthError h, fun _ _ _ h => responsePins_of_invalidCharacter h, ?_,
    fun _ v => ⟨rfl, digitField_toNat v⟩, fun _ => rfl⟩
  intro s p hp
  obtain ⟨r, -, hstatus⟩ := responsePins_some hp
  rw [hstatus]
  exact statusOf_ne_reserved r

end Sys2Proof.Machine
end

section
/-! SUPPORT. The text group as one 40-bit vector (R49). -/

namespace Sys2Proof.Machine

/-- The packed text group, character by character (R49). -/
theorem packText_toNat (t : TextGroup) : (packText t).toNat =
    t.c0.toNat * 2 ^ 32 + t.c1.toNat * 2 ^ 24 + t.c2.toNat * 2 ^ 16 + t.c3.toNat * 2 ^ 8 + t.c4.toNat := by
  simp only [packText, toNat_append_eq]
  omega

/-- The characters stand in the vector from the top octet down. -/
theorem extractLsb'_packText (t : TextGroup) :
    (packText t).extractLsb' 32 8 = t.c0 ∧ (packText t).extractLsb' 24 8 = t.c1 ∧
      (packText t).extractLsb' 16 8 = t.c2 ∧ (packText t).extractLsb' 8 8 = t.c3 ∧ (packText t).extractLsb' 0 8 = t.c4 := by
  have h0 := t.c0.isLt
  have h1 := t.c1.isLt
  have h2 := t.c2.isLt
  have h3 := t.c3.isLt
  have h4 := t.c4.isLt
  refine ⟨?_, ?_, ?_, ?_, ?_⟩ <;> apply BitVec.eq_of_toNat_eq <;>
    simp only [BitVec.extractLsb'_toNat, Nat.shiftRight_eq_div_pow, packText_toNat] <;> omega

@[simp] theorem unpackText_packText (t : TextGroup) : unpackText (packText t) = t := by
  obtain ⟨h0, h1, h2, h3, h4⟩ := extractLsb'_packText t
  rw [unpackText, h0, h1, h2, h3, h4]

@[simp] theorem packText_unpackText (v : BitVec 40) : packText (unpackText v) = v := by
  apply BitVec.eq_of_toNat_eq
  have := v.isLt
  simp only [packText_toNat, unpackText, BitVec.extractLsb'_toNat, Nat.shiftRight_eq_div_pow]
  omega

/-- Settles O19: the octets of the vector are the characters, for a block's group as for any other. -/
theorem textGroupIsOneVectorFirstCharacterOnTop : Obligations.TextGroupIsOneVectorFirstCharacterOnTop :=
  ⟨extractLsb'_packText, unpackText_packText, packText_unpackText, fun a b => extractLsb'_packText (encBlk a b)⟩

end Sys2Proof.Machine
end

section
/-! SUPPORT. ENC32 and DEC5, SYM and VAL, ENCBLK and DECGRP, and the two frame operations undo each other (R84, R86 to
R88, R90, R91). -/

namespace Sys2Proof.Machine

/-- VAL undoes SYM on an alphabet without repetitions (R51, R90). -/
theorem valOf_symOf {a : Alphabet} (ha : meetsSource a = true) (v : Digit) : valOf a (symOf a v) = some v := by
  rw [meetsSource, Bool.and_eq_true, decide_eq_true_eq] at ha
  obtain ⟨hnodup, -⟩ := ha
  obtain ⟨u, hu⟩ := Option.isSome_iff_exists.1 (valOf_isSome a v)
  have hentry : a.toList[u.val]'(by simp) = a.toList[v.val]'(by simp) := symOf_valOf hu
  rw [hu, Fin.ext (hnodup.getElem_inj_iff.1 hentry)]

/-- Reducing at every step of the fold or once at the end is the same (R84). -/
theorem dec5_toNat (d : Group) : (dec5 d).toNat = valueOf d % 2 ^ 32 := by
  simp only [dec5, foldFour, BitVec.toNat_add, foldDigit_toNat, digitWord_toNat, BitVec.toNat_ofNat, valueOf]
  omega

@[simp] theorem dec5_enc32 (w : Word) : dec5 (enc32 w) = w := by
  apply BitVec.eq_of_toNat_eq
  rw [dec5_toNat, valueOf_enc32, Nat.mod_eq_of_lt w.isLt]

/-- Base-85 digits are determined by their value (R81). -/
theorem valueOf_injective {d e : Group} (h : valueOf d = valueOf e) : d = e := by
  obtain ⟨d0, d1, d2, d3, d4⟩ := d
  obtain ⟨e0, e1, e2, e3, e4⟩ := e
  simp only [valueOf] at h
  simp only [Group.mk.injEq, Fin.ext_iff]
  omega

theorem enc32_dec5 {d : Group} (h : valueOf d < 2 ^ 32) : enc32 (dec5 d) = d :=
  valueOf_injective (by rw [valueOf_enc32, dec5_toNat, Nat.mod_eq_of_lt h])

/-- The characters of a block's group are those of the digits of its word. -/
theorem digitsOf_encBlk {a : Alphabet} (ha : meetsSource a = true) (b : Block) :
    digitsOf a (encBlk a b) = some (enc32 (be32 b)) := by
  simp only [digitsOf, encBlk, valOf_symOf ha]

theorem decGrp_encBlk {cfg : Config} (ha : meetsSource cfg.alphabet = true) (b : Block) (base : Nat) :
    decGrp cfg (encBlk cfg.alphabet b) base = .ok b := by
  have hvalue : valueOf (enc32 (be32 b)) < 2 ^ 32 := by rw [valueOf_enc32]; exact (be32 b).isLt
  rw [decGrp_of_digits (digitsOf_encBlk ha b), dec5Under_ok (.inr hvalue), dec5_enc32, Except.map, bytesBe_be32]

/-- A text group is written back by SYM on its digits. -/
theorem encBlk_of_word {a : Alphabet} {t : TextGroup} {b : Block} (h : digitsOf a t = some (enc32 (be32 b))) :
    encBlk a b = t := by
  rw [encBlk]
  generalize enc32 (be32 b) = d at h
  rw [digitsOf] at h
  split at h
  next h0 h1 h2 h3 h4 =>
    cases h
    simp only [symOf_valOf h0, symOf_valOf h1, symOf_valOf h2, symOf_valOf h3, symOf_valOf h4]
  next => cases h

/-- A text group of members that does not overflow is the group of the block it decodes to (R88). -/
theorem encBlk_of_digits {a : Alphabet} {t : TextGroup} {d : Group} (h : digitsOf a t = some d)
    (hvalue : valueOf d < 2 ^ 32) : encBlk a (bytesBe (dec5 d)) = t :=
  encBlk_of_word (by rw [be32_bytesBe, enc32_dec5 hvalue, h])

theorem blocksOf_flatMap (bs : List Block) : blocksOf (bs.flatMap blockFrame) = bs := by
  induction bs with
  | nil => rfl
  | cons b bs ih => rw [List.flatMap_cons, blocksOf_append, ih]

theorem groupsOf_flatMap (ts : List TextGroup) : groupsOf (ts.flatMap textFrame) = ts := by
  induction ts with
  | nil => rfl
  | cons t ts ih => rw [List.flatMap_cons, groupsOf_append, ih]

/-- ENCODE of a sequence of blocks is the sequence of their groups. -/
theorem encodeFrame_flatMap (cfg : Config) (bs : List Block) :
    encodeFrame cfg (bs.flatMap blockFrame) = .ok ((bs.map (encBlk cfg.alphabet)).flatMap textFrame) := by
  have halign : (bs.flatMap blockFrame).length % 4 = 0 := by
    rw [flatMap_length_of_pieces bs blockFrame 4 (fun _ => rfl)]; omega
  rw [encodeFrame_of_aligned halign, blocksOf_flatMap, List.flatMap_map]

theorem decodeGroups_map_encBlk {cfg : Config} (ha : meetsSource cfg.alphabet = true) (bs : List Block) (base : Nat) :
    decodeGroups cfg (bs.map (encBlk cfg.alphabet)) base = .ok (bs.flatMap blockFrame) := by
  induction bs generalizing base with
  | nil => rfl
  | cons b bs ih =>
    rw [List.map_cons, decodeGroups, decGrp_encBlk ha, ih]
    rfl

/-- DECODE of the groups of a sequence of blocks is that sequence, under every policy. -/
theorem decodeFrame_flatMap {cfg : Config} (ha : meetsSource cfg.alphabet = true) (bs : List Block) :
    decodeFrame cfg ((bs.map (encBlk cfg.alphabet)).flatMap textFrame) = .ok (bs.flatMap blockFrame) := by
  have halign : ((bs.map (encBlk cfg.alphabet)).flatMap textFrame).length % 5 = 0 := by
    rw [flatMap_length_of_pieces _ textFrame 5 (fun _ => rfl)]; omega
  rw [decodeFrame, if_pos halign, groupsOf_flatMap, decodeGroups_map_encBlk ha]

/-- DECODE undoes ENCODE (R91). -/
theorem decodeFrame_of_encodeFrame {cfg : Config} (ha : meetsSource cfg.alphabet = true) {f out : Frame}
    (h : encodeFrame cfg f = .ok out) : decodeFrame cfg out = .ok f := by
  obtain ⟨halign, -⟩ := encodeFrame_ok h
  rw [← flatMap_blocksOf f halign] at h ⊢
  rw [encodeFrame_flatMap] at h
  rw [← Except.ok.inj h, decodeFrame_flatMap ha]

/-- A text whose groups are of members and do not overflow is ENCODE of some binary frame. -/
theorem exists_encodeFrame_eq {cfg : Config} {ts : List TextGroup}
    (h : ∀ t ∈ ts, ∃ d, digitsOf cfg.alphabet t = some d ∧ valueOf d < 2 ^ 32) :
    ∃ f, encodeFrame cfg f = .ok (ts.flatMap textFrame) ∧ f.length * 5 = (ts.flatMap textFrame).length * 4 := by
  have himage : ts ∈ Set.range (List.map (encBlk cfg.alphabet)) := by
    rw [Set.range_list_map]
    intro t ht
    obtain ⟨d, hd, hvalue⟩ := h t ht
    exact ⟨_, encBlk_of_digits hd hvalue⟩
  obtain ⟨bs, rfl⟩ := himage
  refine ⟨bs.flatMap blockFrame, encodeFrame_flatMap cfg bs, ?_⟩
  rw [flatMap_length_of_pieces _ textFrame 5 (fun _ => rfl), flatMap_length_of_pieces bs blockFrame 4 (fun _ => rfl),
    List.length_map]
  omega

end Sys2Proof.Machine
end

section
/-! SUPPORT. The source's vectors V1 to V6, from the seven entries and the text that R52 fixes. -/

namespace Sys2Proof.Machine

/-- What R52 says of an alphabet: the seven entries, `~`, and the 40-character text. -/
theorem meetsVectors_iff {a : Alphabet} : meetsVectors a = true ↔
    (∀ e ∈ sourceEntries, symOf a e.1 = e.2) ∧ valOf a 0x7E#8 = none ∧
      ∀ t ∈ sourceText, ∃ d, digitsOf a t = some d ∧ valueOf d < 2 ^ 32 := by
  simp only [meetsVectors, Bool.and_eq_true, List.all_eq_true, beq_iff_eq, isMember, Bool.not_eq_true',
    Option.isSome_eq_false_iff, Option.isNone_iff_eq_none, and_assoc]
  refine and_congr_right' (and_congr_right' (forall₂_congr fun t _ => ?_))
  cases digitsOf a t <;> simp [overflows]

/-- The frame bound admits what is no longer than an admitted frame (R130). -/
theorem accepts_of_length_le {cfg : Config} {f g : Frame} (h : accepts cfg f = true) (hle : g.length ≤ f.length) :
    accepts cfg g = true := by
  rw [accepts] at h ⊢
  split
  next => rfl
  next m hm =>
    rw [hm] at h
    exact decide_eq_true (hle.trans (of_decide_eq_true h))

theorem exec_encode_of_accepts {s : State} {f : Frame} (h : accepts s.cfg f = true) :
    exec (.encode f) s = answer (encodeFrame s.cfg f) s := if_pos h

theorem exec_decode_of_accepts {s : State} {f : Frame} (h : accepts s.cfg f = true) :
    exec (.decode f) s = answer (decodeFrame s.cfg f) s := if_pos h

/-- The digits of the two words of V1 are seven that R52 fixes. -/
theorem encodeFrame_helloWorld {cfg : Config} (h : ∀ e ∈ sourceEntries, symOf cfg.alphabet e.1 = e.2) :
    encodeFrame cfg [0x86#8, 0x4F#8, 0xD2#8, 0x6F#8, 0xB5#8, 0x59#8, 0xF7#8, 0x5B#8] =
      .ok [0x48#8, 0x65#8, 0x6C#8, 0x6C#8, 0x6F#8, 0x57#8, 0x6F#8, 0x72#8, 0x6C#8, 0x64#8] := by
  have hhello : enc32 (be32 ⟨0x86#8, 0x4F#8, 0xD2#8, 0x6F#8⟩) = ⟨43, 14, 21, 21, 24⟩ := by decide
  have hworld : enc32 (be32 ⟨0xB5#8, 0x59#8, 0xF7#8, 0x5B#8⟩) = ⟨58, 24, 27, 21, 13⟩ := by decide
  simp only [sourceEntries, List.forall_mem_cons] at h
  obtain ⟨hd, he, hl, ho, hr, hH, hW, -⟩ := h
  have hblocks := encodeFrame_flatMap cfg [⟨0x86#8, 0x4F#8, 0xD2#8, 0x6F#8⟩, ⟨0xB5#8, 0x59#8, 0xF7#8, 0x5B#8⟩]
  simp only [List.map_cons, List.map_nil, encBlk, hhello, hworld, hd, he, hl, ho, hr, hH, hW] at hblocks
  exact hblocks

theorem encodeFrame_of_unaligned {cfg : Config} {f : Frame} (h : f.length % 4 ≠ 0) :
    encodeFrame cfg f = .error .lengthError := if_neg h

theorem decodeFrame_of_unaligned {cfg : Config} {f : Frame} (h : f.length % 5 ≠ 0) :
    decodeFrame cfg f = .error .lengthError := if_neg h

/-- DECODE stops at a non-member that stands first in its frame (R77, R100). -/
theorem decodeFrame_of_first_nonmember {cfg : Config} {t : TextGroup} {f : Frame} (hlen : f.length % 5 = 0)
    (h : valOf cfg.alphabet t.c0 = none) :
    decodeFrame cfg (textFrame t ++ f) = .error (.invalidCharacter t.c0 0) := by
  have halign : (textFrame t ++ f).length % 5 = 0 := by rw [List.length_append, textFrame_length]; omega
  have hdigits : groupDigits cfg.alphabet t 0 = .error (.invalidCharacter t.c0 0) := by
    rw [groupDigits, digitAt, h]
    rfl
  rw [decodeFrame, if_pos halign, groupsOf_append, decodeGroups, decGrp, hdigits]
  rfl

/-- Settles O36: V1 from the seven entries, V2 and V6 by DECODE undoing ENCODE, V3 and V4 by length, V5 by `~`. -/
theorem sourceVectorsHoldForEveryAdmissibleAlphabet : Obligations.SourceVectorsHoldForEveryAdmissibleAlphabet := by
  intro s hadm haccepts
  rw [admissible, Bool.and_eq_true] at hadm
  obtain ⟨hsource, hvectors⟩ := hadm
  obtain ⟨hentries, htilde, htext⟩ := meetsVectors_iff.1 hvectors
  have hshort : ∀ {f : Frame}, f.length ≤ 40 → accepts s.cfg f = true := accepts_of_length_le haccepts
  have hhello := encodeFrame_helloWorld hentries
  obtain ⟨b, hb, hlen⟩ := exists_encodeFrame_eq htext
  have hlen40 : (sourceText.flatMap textFrame).length = 40 := rfl
  refine ⟨?_, ?_, ?_, ?_, ?_, b, ?_, ?_⟩
  · rw [exec_encode_of_accepts (hshort (by decide)), hhello]; rfl
  · rw [exec_decode_of_accepts (hshort (by decide)), decodeFrame_of_encodeFrame hsource hhello]; rfl
  · rw [exec_encode_of_accepts (hshort (by decide)), encodeFrame_of_unaligned (by decide)]; rfl
  · rw [exec_decode_of_accepts (hshort (by decide)), decodeFrame_of_unaligned (by decide)]; rfl
  · have hv5 := decodeFrame_of_first_nonmember (t := ⟨0x7E#8, 0x7E#8, 0x7E#8, 0x7E#8, 0x7E#8⟩) (f := []) rfl htilde
    rw [exec_decode_of_accepts (hshort (by decide))]
    exact congrArg (answer · s) hv5
  · rw [exec_decode_of_accepts haccepts, decodeFrame_of_encodeFrame hsource hb]; rfl
  · rw [exec_encode_of_accepts (hshort (by omega)), hb]; rfl

end Sys2Proof.Machine
end

section
/-! SUPPORT. The two units of the encoder on their ports: SYM by table entry, and ENC32 by the closed form of its digits and
of the vector that packs them (R47, R63, R64, R82). -/

namespace Sys2Proof.Machine

theorem exec_sym_of_lt (s : State) {v : BitVec 7} (h : v.toNat < 85) :
    exec (.sym v) s = .next (reply (.symC (symOf s.cfg.alphabet ⟨v.toNat, h⟩)) s) := by
  rw [exec, execSym, fieldDigit_of_lt h]

/-- Settles O5: a code below 85 is a digit, and SYM reads the forward view at it. -/
theorem symGivesTheCharacterOfTheDigit : Obligations.SymGivesTheCharacterOfTheDigit :=
  fun s _ h => exec_sym_of_lt s h

/-- The remainders of the successive divisions are the digits of the word, most significant first (R82). -/
theorem enc32_digits (w : Word) :
    (enc32 w).d0.val = w.toNat / 85 ^ 4 % 85 ∧ (enc32 w).d1.val = w.toNat / 85 ^ 3 % 85 ∧
      (enc32 w).d2.val = w.toNat / 85 ^ 2 % 85 ∧ (enc32 w).d3.val = w.toNat / 85 % 85 ∧
      (enc32 w).d4.val = w.toNat % 85 := by
  simp only [enc32, remainder_val, quotient_toNat, Nat.div_div_eq_div_mul, Nat.reduceMul, Nat.reducePow, and_self]

/-- A packed group as a number: each digit has 7 bits, the first on top (R47). -/
theorem packGroup_eq_ofNat (d : Group) : packGroup d = BitVec.ofNat 35
    (d.d0.val * 2 ^ 28 + d.d1.val * 2 ^ 21 + d.d2.val * 2 ^ 14 + d.d3.val * 2 ^ 7 + d.d4.val) := by
  have hnum : (packGroup d).toNat = _ := packFields_toNat _ _ _ _ _
  simp only [digitField_toNat] at hnum
  rw [← hnum, BitVec.ofNat_toNat, BitVec.setWidth_eq]

/-- Settles O8: the port gives the packed group of the word's five digits. -/
theorem enc32GivesTheFiveDigitsOfTheWord : Obligations.Enc32GivesTheFiveDigitsOfTheWord := by
  intro s w
  obtain ⟨h0, h1, h2, h3, h4⟩ := enc32_digits w
  rw [← h0, ← h1, ← h2, ← h3, ← h4, ← packGroup_eq_ofNat]
  rfl

end Sys2Proof.Machine
end

section
/-! SUPPORT. ENCODE block by block: what stands in each block of the input and in each group of the output, and the characters
of a group by index (R30, R65 to R68). -/

namespace Sys2Proof.Machine

/-- Reads of a piece, or of nothing past the end, agree only where the pieces do. -/
theorem elim_pieces_inj {α : Type} {h : α → Frame} (hinj : Function.Injective h) (hne : ∀ x, h x ≠ []) {o o' : Option α} :
    o.elim [] h = o'.elim [] h ↔ o = o' := by
  cases o with
  | none => cases o' <;> simp [(hne _).symm]
  | some x => cases o' <;> simp [hne, hinj.eq_iff]

theorem memRead_eq_blockFrame_iff {f : Frame} (h : f.length % 4 = 0) {g : Nat} {b : Block} :
    memRead f (4 * g) 4 = blockFrame b ↔ (blocksOf f)[g]? = some b := by
  rw [memRead_blocksOf f h]
  exact elim_pieces_inj (o' := some b) (fun _ _ => blockFrame_injective) (fun _ => List.cons_ne_nil _ _)

theorem encodeFrame_length {cfg : Config} {f out : Frame} (h : encodeFrame cfg f = .ok out) :
    out.length = 5 * (f.length / 4) := by
  obtain ⟨-, rfl⟩ := encodeFrame_ok h
  rw [flatMap_length_of_pieces _ _ 5 fun _ => rfl, blocksOf_length]

/-- Group `g` of the output is the text group of block `g`, and there are no others (R68). -/
theorem memRead_encodeFrame {cfg : Config} {f out : Frame} (h : encodeFrame cfg f = .ok out) (g : Nat) :
    memRead out (5 * g) 5 = ((blocksOf f)[g]?).elim [] fun b => textFrame (encBlk cfg.alphabet b) := by
  obtain ⟨-, rfl⟩ := encodeFrame_ok h
  exact memRead_flatMap _ _ 5 (fun _ => rfl) g

/-- Distinct blocks have distinct text groups, since DECGRP gives the block back (R88). -/
theorem encBlk_injective {cfg : Config} (ha : meetsSource cfg.alphabet = true) :
    Function.Injective (encBlk cfg.alphabet) := by
  intro b b' h
  have hb := decGrp_encBlk ha b 0
  rw [h, decGrp_encBlk ha b'] at hb
  exact (Except.ok.inj hb).symm

/-- Blocks of the inputs agree where groups of the outputs do (R68). -/
theorem memRead_encodeFrame_eq_iff {cfg : Config} (ha : meetsSource cfg.alphabet = true) {x y outX outY : Frame}
    (hx : encodeFrame cfg x = .ok outX) (hy : encodeFrame cfg y = .ok outY) (g : Nat) :
    memRead x (4 * g) 4 = memRead y (4 * g) 4 ↔ memRead outX (5 * g) 5 = memRead outY (5 * g) 5 := by
  obtain ⟨halignX, -⟩ := encodeFrame_ok hx
  obtain ⟨halignY, -⟩ := encodeFrame_ok hy
  have hgroup : Function.Injective fun b => textFrame (encBlk cfg.alphabet b) :=
    fun _ _ h => encBlk_injective ha (textFrame_injective h)
  rw [memRead_blocksOf x halignX, memRead_blocksOf y halignY, memRead_encodeFrame hx, memRead_encodeFrame hy,
    elim_pieces_inj (fun _ _ => blockFrame_injective) (fun _ => List.cons_ne_nil _ _),
    elim_pieces_inj hgroup (fun _ => List.cons_ne_nil _ _)]

theorem encodeFrame_append {cfg : Config} {x y : Frame} (hx : x.length % 4 = 0) (hy : y.length % 4 = 0) :
    ∃ outX outY, encodeFrame cfg x = .ok outX ∧ encodeFrame cfg y = .ok outY ∧
      encodeFrame cfg (x ++ y) = .ok (outX ++ outY) := by
  rw [← flatMap_blocksOf x hx, ← flatMap_blocksOf y hy]
  refine ⟨_, _, encodeFrame_flatMap cfg _, encodeFrame_flatMap cfg _, ?_⟩
  rw [← List.flatMap_append, encodeFrame_flatMap, List.map_append, List.flatMap_append]

/-- Settles O23: ENCODE is ENCBLK on each block in order, and ENCBLK is injective. -/
theorem encodeGroupsAreIndependentAndInOrder : Obligations.EncodeGroupsAreIndependentAndInOrder := by
  intro cfg ha
  refine ⟨fun input out g b hout hb => ?_, fun _ _ _ _ g _ hx hy => memRead_encodeFrame_eq_iff ha hx hy g,
    fun _ _ hx hy => encodeFrame_append hx hy⟩
  obtain ⟨halign, -⟩ := encodeFrame_ok hout
  rw [memRead_encodeFrame hout, (memRead_eq_blockFrame_iff halign).1 hb, Option.elim_some]

/-- Settles O22: the length of the groups, SYM giving only members, and DECODE undoing ENCODE. -/
theorem encodeResultIsATextFrameDecodeTakes : Obligations.EncodeResultIsATextFrameDecodeTakes := by
  intro cfg input out ha hout
  have htext := encodeFrame_isTextFrame hout
  obtain ⟨halign, hmembers⟩ := isTextFrame_iff.1 htext
  exact ⟨by rw [encodeFrame_length hout, Nat.mul_comm], halign, hmembers, htext, input, decodeFrame_of_encodeFrame ha hout⟩

theorem symOf_eq_getElem? (a : Alphabet) (v : Digit) : some (symOf a v) = a[v.val]? :=
  (Vector.getElem?_eq_getElem v.isLt).symm

/-- Character `i` of a block's group is the table entry of digit `i` of its word (R65, R82). -/
theorem textFrame_encBlk_getElem? (a : Alphabet) (b : Block) {i : Nat} (hi : i < 5) :
    (textFrame (encBlk a b))[i]? = a[(be32 b).toNat / 85 ^ (4 - i) % 85]? := by
  obtain ⟨h0, h1, h2, h3, h4⟩ := enc32_digits (be32 b)
  match i, hi with
  | 0, _ => exact h0 ▸ symOf_eq_getElem? a _
  | 1, _ => exact h1 ▸ symOf_eq_getElem? a _
  | 2, _ => exact h2 ▸ symOf_eq_getElem? a _
  | 3, _ => exact h3 ▸ symOf_eq_getElem? a _
  | 4, _ =>
    rw [Nat.sub_self, Nat.pow_zero, Nat.div_one]
    exact h4 ▸ symOf_eq_getElem? a _

theorem encodeFrame_getElem? {cfg : Config} {f out : Frame} (h : encodeFrame cfg f = .ok out) {g i : Nat}
    (hg : g < f.length / 4) (hi : i < 5) : out[5 * g + i]? = cfg.alphabet[wordAt f g / 85 ^ (4 - i) % 85]? := by
  obtain ⟨halign, -⟩ := encodeFrame_ok h
  rw [← blocksOf_length] at hg
  have hblock : (blocksOf f)[g]? = some (blocksOf f)[g] := List.getElem?_eq_getElem hg
  rw [getElem?_memRead hi, memRead_encodeFrame h, hblock, wordAt_of_block ((memRead_eq_blockFrame_iff halign).2 hblock)]
  exact textFrame_encBlk_getElem? _ _ hi

/-- Settles O21: the atomic ENCODE of an aligned frame, with its output read group by group. -/
theorem encodeAnswersTheTextFrame : Obligations.EncodeAnswersTheTextFrame := by
  intro s input haccepts halign
  have hout := encodeFrame_of_aligned (cfg := s.cfg) halign
  refine ⟨_, ?_, ?_, fun g hg i hi => encodeFrame_getElem? hout hg hi⟩
  · rw [exec_encode_of_accepts haccepts, hout]
    rfl
  · rw [encodeFrame_length hout]
    omega

end Sys2Proof.Machine
end

section
/-! SUPPORT. The sequencer's moves, one equation for each, and what is left of a frame operation when its first groups are done
(R16, R21, R22, R66, R75, R78, R133). -/

namespace Sys2Proof.Machine

theorem micro_of_misaligned {cfg : Config} {c : Command} {w : Work} (hw : w.phase = .notValidated)
    (h : c.input.length % blockSize c ≠ 0) :
    micro cfg c w = { w with phase := .failed, raised := some .lengthError } := by
  rw [micro, hw]
  exact if_neg h

theorem micro_of_aligned {cfg : Config} {c : Command} {w : Work} (hw : w.phase = .notValidated)
    (h : c.input.length % blockSize c = 0) : micro cfg c w = { w with phase := .inProgress } := by
  rw [micro, hw]
  exact if_pos h

theorem micro_of_group {cfg : Config} {c : Command} {w : Work} {o : Frame} (hw : w.phase = .inProgress)
    (hg : w.g < groupCount c) (h : groupOutput cfg c w.g = .ok o) :
    micro cfg c w = { w with g := w.g + 1, out := w.out ++ o } := by
  simp only [micro, hw, if_pos hg, h]

theorem micro_of_group_error {cfg : Config} {c : Command} {w : Work} {e : Raise} (hw : w.phase = .inProgress)
    (hg : w.g < groupCount c) (h : groupOutput cfg c w.g = .error e) :
    micro cfg c w = { w with phase := .failed, out := [], raised := some e } := by
  simp only [micro, hw, if_pos hg, h]

theorem micro_of_end {cfg : Config} {c : Command} {w : Work} (hw : w.phase = .inProgress) (hg : ¬ w.g < groupCount c) :
    micro cfg c w = { w with phase := .complete } := by
  simp only [micro, hw, if_neg hg]

theorem runMicro_of_failed {cfg : Config} {c : Command} {w : Work} (hw : w.phase = .failed) (k : Nat) :
    runMicro cfg c k w = w := by
  induction k with
  | zero => rfl
  | succ k ih =>
    have hstay : micro cfg c w = w := by rw [micro, hw]
    rw [runMicro, hstay, ih]

/-- What the operation still has to answer from group `g` on: the atomic operation on the groups not yet done. -/
def resultFrom (cfg : Config) (c : Command) (g : Nat) : Except Raise Frame :=
  if c.op = 0#1 then .ok (((blocksOf c.input).drop g).flatMap (fun b => textFrame (encBlk cfg.alphabet b)))
  else decodeGroups cfg ((groupsOf c.input).drop g) (5 * g)

/-- The atomic operation is its length check, then all the groups (R66, R75). -/
theorem resultOf_eq_resultFrom (cfg : Config) (c : Command) : resultOf cfg c =
    if c.input.length % blockSize c = 0 then resultFrom cfg c 0 else .error .lengthError := by
  by_cases hop : c.op = 0#1
  · simp only [resultOf, resultFrom, blockSize, if_pos hop, encodeFrame, List.drop_zero]
  · simp only [resultOf, resultFrom, blockSize, if_neg hop, decodeFrame, List.drop_zero]

theorem resultFrom_groupCount (cfg : Config) (c : Command) : resultFrom cfg c (groupCount c) = .ok [] := by
  by_cases hop : c.op = 0#1
  · have hdone : (blocksOf c.input).drop (groupCount c) = [] := by
      rw [groupCount, blockSize, if_pos hop, ← blocksOf_length, List.drop_length]
    rw [resultFrom, if_pos hop, hdone]
    rfl
  · have hdone : (groupsOf c.input).drop (groupCount c) = [] := by
      rw [groupCount, blockSize, if_neg hop, ← groupsOf_length, List.drop_length]
    rw [resultFrom, if_neg hop, hdone]
    rfl

/-- The group loop of DECODE is its first group, then the loop on the rest. -/
theorem decodeGroups_cons (cfg : Config) (t : TextGroup) (ts : List TextGroup) (base : Nat) :
    decodeGroups cfg (t :: ts) base =
      decodeGroups cfg [t] base >>= fun o => (decodeGroups cfg ts (base + 5)).map (o ++ ·) := by
  simp only [decodeGroups]
  cases decGrp cfg t base with
  | error e => rfl
  | ok b => cases decodeGroups cfg ts (base + 5) <;> simp [bind, Except.bind, pure, Except.pure, Except.map]

/-- The groups from `g` on are group `g`, then those from `g + 1` on; an error of group `g` is the answer (R66, R75, R78). -/
theorem resultFrom_succ {cfg : Config} {c : Command} (halign : c.input.length % blockSize c = 0) {g : Nat}
    (hg : g < groupCount c) :
    resultFrom cfg c g = groupOutput cfg c g >>= fun o => (resultFrom cfg c (g + 1)).map (o ++ ·) := by
  by_cases hop : c.op = 0#1
  · rw [blockSize, if_pos hop] at halign
    rw [groupCount, blockSize, if_pos hop, ← blocksOf_length] at hg
    simp only [resultFrom, groupOutput, if_pos hop]
    rw [List.drop_eq_getElem_cons hg, memRead_blocksOf _ halign, List.getElem?_eq_getElem hg]
    rfl
  · rw [blockSize, if_neg hop] at halign
    rw [groupCount, blockSize, if_neg hop, ← groupsOf_length] at hg
    simp only [resultFrom, groupOutput, if_neg hop]
    rw [List.drop_eq_getElem_cons hg, decodeGroups_cons, memRead_groupsOf _ halign, List.getElem?_eq_getElem hg]
    rfl

/-- The group loop, from any group on: with `m` groups left it takes `m + 1` moves, and answers the output so far followed by
that of the groups left, or their error. -/
theorem workResult_runMicro {cfg : Config} {c : Command} (halign : c.input.length % blockSize c = 0) (m : Nat) {w : Work}
    (hw : w.phase = .inProgress) (hm : w.g + m = groupCount c) :
    workResult (runMicro cfg c (m + 1) w) = some ((resultFrom cfg c w.g).map (w.out ++ ·)) := by
  induction m generalizing w with
  | zero =>
    have hend : w.g = groupCount c := hm
    rw [runMicro, micro_of_end hw (by omega), hend, resultFrom_groupCount, Except.map, List.append_nil]
    rfl
  | succ m ih =>
    have hg : w.g < groupCount c := by omega
    rw [runMicro, resultFrom_succ halign hg]
    cases ho : groupOutput cfg c w.g with
    | error e =>
      rw [micro_of_group_error hw hg ho, runMicro_of_failed rfl]
      rfl
    | ok o =>
      have hnext := ih (w := { w with g := w.g + 1, out := w.out ++ o }) hw ((Nat.succ_add_eq_add_succ _ _).trans hm)
      rw [micro_of_group hw hg ho, hnext]
      cases resultFrom cfg c (w.g + 1) <;> simp [bind, Except.bind, Except.map]

/-- Settles O56: the length check is a move, and the group loop from group 0 answers all the groups. -/
theorem sequencerAgreesWithTheAtomicOperation : Obligations.SequencerAgreesWithTheAtomicOperation := by
  intro cfg c
  rw [resultOf_eq_resultFrom, runMicro]
  split
  next halign =>
    rw [micro_of_aligned rfl halign, workResult_runMicro halign _ rfl (Nat.zero_add _)]
    cases h : resultFrom cfg c 0 <;> simp [startWork, h, Except.map]
  next hmis =>
    rw [micro_of_misaligned rfl hmis, runMicro_of_failed rfl]
    rfl

end Sys2Proof.Machine
end

section
/-! SUPPORT. The look-up VAL and the unit DEC5 on their ports, each by its closed form (R54, R71 to R73). -/

namespace Sys2Proof.Machine

/-- On an alphabet without repetitions VAL answers the one digit whose character it is (R51, R54). -/
theorem valOf_eq_some_iff {a : Alphabet} (ha : meetsSource a = true) {c : Byte} {v : Digit} :
    valOf a c = some v ↔ symOf a v = c :=
  ⟨symOf_valOf, fun h => h ▸ valOf_symOf ha v⟩

theorem valOf_eq_none_iff {a : Alphabet} (ha : meetsSource a = true) {c : Byte} :
    valOf a c = none ↔ ∀ v, symOf a v ≠ c := by
  simp only [Option.eq_none_iff_forall_ne_some, ne_eq, valOf_eq_some_iff ha]

/-- Settles O6: VAL answers from the reverse view, which is the inverse of the forward one. -/
theorem valGivesTheDigitOfTheCharacter : Obligations.ValGivesTheDigitOfTheCharacter :=
  fun s c ha => ⟨valOf s.cfg.alphabet c, rfl, fun _ => valOf_eq_some_iff ha, valOf_eq_none_iff ha⟩

/-- Five legal fields hold the group of their numbers (R46, R72). -/
theorem fieldsGroup_of_lt {d0 d1 d2 d3 d4 : BitVec 7} (h0 : d0.toNat < 85) (h1 : d1.toNat < 85) (h2 : d2.toNat < 85)
    (h3 : d3.toNat < 85) (h4 : d4.toNat < 85) : fieldsGroup d0 d1 d2 d3 d4 =
      some ⟨⟨d0.toNat, h0⟩, ⟨d1.toNat, h1⟩, ⟨d2.toNat, h2⟩, ⟨d3.toNat, h3⟩, ⟨d4.toNat, h4⟩⟩ := by
  simp only [fieldsGroup, fieldDigit_of_lt, h0, h1, h2, h3, h4]

theorem exec_dec5_of_ok {s : State} {d0 d1 d2 d3 d4 : BitVec 7} {d : Group} {w : Word}
    (hd : fieldsGroup d0 d1 d2 d3 d4 = some d) (hw : dec5Under s.cfg.overflow d = .ok w) :
    exec (.dec5 d0 d1 d2 d3 d4) s = .next (reply (.decW w) s) := by
  simp only [exec, execDec5, hd, hw]

theorem exec_dec5_of_overflow {s : State} {d0 d1 d2 d3 d4 : BitVec 7} {d : Group}
    (hd : fieldsGroup d0 d1 d2 d3 d4 = some d) (he : dec5Under s.cfg.overflow d = .error .overflow) :
    exec (.dec5 d0 d1 d2 d3 d4) s = .fault .overflowError := by
  simp only [exec, execDec5, hd, he, raiseError]

theorem dec5_eq_ofNat (d : Group) : dec5 d = BitVec.ofNat 32 (valueOf d) := by
  apply BitVec.eq_of_toNat_eq
  rw [dec5_toNat, BitVec.toNat_ofNat]

/-- Settles O12: the fields are a group, whose word is its value reduced modulo the word. -/
theorem dec5GivesTheValueModuloTheWord : Obligations.Dec5GivesTheValueModuloTheWord := by
  intro s d0 d1 d2 d3 d4 h0 h1 h2 h3 h4 hpolicy
  have hvalue : d0.toNat * 85 ^ 4 + d1.toNat * 85 ^ 3 + d2.toNat * 85 ^ 2 + d3.toNat * 85 + d4.toNat =
      valueOf ⟨⟨d0.toNat, h0⟩, ⟨d1.toNat, h1⟩, ⟨d2.toNat, h2⟩, ⟨d3.toNat, h3⟩, ⟨d4.toNat, h4⟩⟩ := by
    simp only [valueOf, Nat.mul_comm]
  rw [hvalue] at hpolicy ⊢
  rw [← dec5_eq_ofNat]
  exact exec_dec5_of_ok (fieldsGroup_of_lt h0 h1 h2 h3 h4) (dec5Under_ok hpolicy)

theorem overflows_iff {d : Group} : overflows d = true ↔ 2 ^ 32 ≤ valueOf d := decide_eq_true_iff

/-- ANY_VALUE gives an overflowing group its free word (R73, U1). -/
theorem dec5Under_anyValue {d : Group} (h : 2 ^ 32 ≤ valueOf d) :
    dec5Under .anyValue d = .ok (Config.overflowWord d) := if_pos (overflows_iff.2 h)

/-- FAULT gives an overflowing group no word (R73, U2). -/
theorem dec5Under_fault {d : Group} (h : 2 ^ 32 ≤ valueOf d) : dec5Under .fault d = .error .overflow :=
  if_pos (overflows_iff.2 h)

/-- Settles O13: the policy decides what the port makes of an overflowing group. -/
theorem dec5OfAnOverflowingGroupFollowsThePolicy : Obligations.Dec5OfAnOverflowingGroupFollowsThePolicy := by
  intro s d hover
  have hd := fieldsGroup_digitField d
  exact ⟨fun hp => exec_dec5_of_ok hd (by rw [hp, dec5Under_anyValue hover]),
    fun hp => exec_dec5_of_overflow hd (by rw [hp, dec5Under_fault hover])⟩

end Sys2Proof.Machine
end

section
/-! SUPPORT. DECODE of a text frame, whose groups all have a word under the policy (R73, R75, R84). -/

namespace Sys2Proof.Machine

/-- DECODE of a text frame each of whose groups has a word presents the frame of those words. -/
theorem exec_decode_of_text {s : State} {f : Frame} (haccepts : accepts s.cfg f = true)
    (htext : isTextFrame s.cfg.alphabet f = true)
    (hwords : ∀ g, g < f.length / 5 → ∀ d, holdsGroup s.cfg.alphabet f g d → ∃ w, dec5Under s.cfg.overflow d = .ok w) :
    ∃ out, exec (.decode f) s = .next (present (.ok out) s) ∧ out.length * 5 = f.length * 4 ∧
      ∀ g, g < f.length / 5 → ∀ d, holdsGroup s.cfg.alphabet f g d →
        ∀ w, dec5Under s.cfg.overflow d = .ok w → wordAt out g = w.toNat := by
  obtain ⟨out, hout, hlen, hblocks⟩ := decodeFrame_of_text htext hwords
  refine ⟨out, by rw [exec_decode_of_accepts haccepts, hout]; rfl, hlen, fun g hg d hd w hw => ?_⟩
  obtain ⟨w', hw', hword, -⟩ := hblocks g hg d hd
  rw [hword, Except.ok.inj (hw'.symm.trans hw)]

/-- Settles O25: the word of each group is the closed form of DEC5. -/
theorem decodeAnswersTheBinaryFrame : Obligations.DecodeAnswersTheBinaryFrame := by
  intro s f haccepts htext hpolicy
  have hdec5 : ∀ g, g < f.length / 5 → ∀ d, holdsGroup s.cfg.alphabet f g d →
      dec5Under s.cfg.overflow d = .ok (dec5 d) :=
    fun g hg d hd => dec5Under_ok (hpolicy.imp_right fun h => h g hg d hd)
  obtain ⟨out, hexec, hlen, hwords⟩ := exec_decode_of_text haccepts htext fun g hg d hd => ⟨_, hdec5 g hg d hd⟩
  exact ⟨out, hexec, hlen, fun g hg d hd => by rw [hwords g hg d hd _ (hdec5 g hg d hd), dec5_toNat]⟩

/-- Settles O26: the free word is drawn for a group exactly when it overflows. -/
theorem decodeUnderAnyValueDrawsOnlyForOverflowingGroups :
    Obligations.DecodeUnderAnyValueDrawsOnlyForOverflowingGroups := by
  intro s f haccepts htext hpolicy
  have hsmall : ∀ d, valueOf d < 2 ^ 32 → dec5Under s.cfg.overflow d = .ok (dec5 d) := fun d h => dec5Under_ok (.inr h)
  have hlarge : ∀ d, 2 ^ 32 ≤ valueOf d → dec5Under s.cfg.overflow d = .ok (Config.overflowWord d) :=
    fun d h => by rw [hpolicy, dec5Under_anyValue h]
  obtain ⟨out, hexec, hlen, hwords⟩ := exec_decode_of_text haccepts htext fun _ _ d _ =>
    (Nat.lt_or_ge (valueOf d) (2 ^ 32)).elim (fun h => ⟨_, hsmall d h⟩) fun h => ⟨_, hlarge d h⟩
  refine ⟨out, hexec, hlen, fun g hg d hd => ⟨fun h => ?_, fun h => hwords g hg d hd _ (hlarge d h)⟩⟩
  rw [hwords g hg d hd _ (hsmall d h), dec5_toNat, Nat.mod_eq_of_lt h]

end Sys2Proof.Machine
end

section
/-! SUPPORT. How DECODE ends on an error: the lowest non-member of a frame or of a group, and the first group that ends the loop
(R73, R74, R75, R77, R78). -/

namespace Sys2Proof.Machine

/-- No index is found only in a frame of members. -/
theorem firstNonMember_eq_none {a : Alphabet} {f : Frame} {q : Nat} :
    firstNonMember a f q = none ↔ ∀ c ∈ f, isMember a c = true := by
  induction f generalizing q with
  | nil => simp [firstNonMember]
  | cons x f ih => cases hx : isMember a x <;> simp [firstNonMember, hx, ih]

/-- What is found is a non-member, with only members before it. -/
theorem firstNonMember_sound {a : Alphabet} {f : Frame} {q p : Nat} {c : Byte} (h : firstNonMember a f q = some (c, p)) :
    ∃ i, p = q + i ∧ f[i]? = some c ∧ isMember a c = false ∧ ∀ x ∈ f.take i, isMember a x = true := by
  induction f generalizing q with
  | nil => cases h
  | cons x f ih =>
    rw [firstNonMember] at h
    split at h
    next hx =>
      obtain ⟨i, rfl, hc, hnon, hbefore⟩ := ih h
      exact ⟨i + 1, by omega, hc, hnon, List.forall_mem_cons.2 ⟨hx, hbefore⟩⟩
    next hx =>
      cases h
      exact ⟨0, rfl, rfl, Bool.eq_false_iff.2 hx, by simp⟩

/-- A non-member with only members before it is found. -/
theorem firstNonMember_of_lowest {a : Alphabet} {f : Frame} {i : Nat} {c : Byte} (q : Nat) (hc : f[i]? = some c)
    (hnon : isMember a c = false) (hbefore : ∀ x ∈ f.take i, isMember a x = true) :
    firstNonMember a f q = some (c, q + i) := by
  induction f generalizing q i with
  | nil => cases hc
  | cons x f ih =>
    cases i with
    | zero =>
      cases hc
      simp [firstNonMember, hnon]
    | succ i =>
      obtain ⟨hx, hrest⟩ := List.forall_mem_cons.1 hbefore
      rw [firstNonMember, if_pos hx, ih (q + 1) hc hrest, Nat.add_right_comm, Nat.add_assoc]

/-- The test of one character before the others, as `do` puts them: it reports this character, or leaves the lowest
non-member to the tests that follow. -/
theorem digitAt_bind_of_firstNonMember {α : Type} {a : Alphabet} {x c : Byte} {f : Frame} {q p : Nat}
    {k : Digit → Except Raise α} (h : firstNonMember a (x :: f) q = some (c, p))
    (hk : firstNonMember a f (q + 1) = some (c, p) → ∀ v, k v = .error (.invalidCharacter c p)) :
    (digitAt a x q >>= k) = .error (.invalidCharacter c p) := by
  rw [firstNonMember, isMember] at h
  rcases digitAt_cases a x q with ⟨v, hv, hok⟩ | ⟨hnone, herr⟩
  · rw [hv] at h
    rw [hok]
    exact hk h v
  · rw [hnone] at h
    cases h
    rw [herr]
    rfl

/-- A group that holds a non-member reports its lowest one (R74). -/
theorem groupDigits_of_firstNonMember {a : Alphabet} {t : TextGroup} {q p : Nat} {c : Byte}
    (h : firstNonMember a (textFrame t) q = some (c, p)) : groupDigits a t q = .error (.invalidCharacter c p) :=
  digitAt_bind_of_firstNonMember h fun h _ => digitAt_bind_of_firstNonMember h fun h _ =>
    digitAt_bind_of_firstNonMember h fun h _ => digitAt_bind_of_firstNonMember h fun h _ =>
      digitAt_bind_of_firstNonMember h nofun

theorem decGrp_of_firstNonMember {cfg : Config} {t : TextGroup} {q p : Nat} {c : Byte}
    (h : firstNonMember cfg.alphabet (textFrame t) q = some (c, p)) :
    decGrp cfg t q = .error (.invalidCharacter c p) := by
  rw [decGrp, groupDigits_of_firstNonMember h]
  rfl

/-- A group of members raises nothing but the overflow, under FAULT (R73). -/
theorem decGrp_error_of_digits {cfg : Config} {t : TextGroup} {d : Group} {q : Nat} {e : Raise}
    (hd : digitsOf cfg.alphabet t = some d) (h : decGrp cfg t q = .error e) :
    e = .overflow ∧ cfg.overflow = .fault ∧ 2 ^ 32 ≤ valueOf d := by
  rw [decGrp_of_digits hd] at h
  rcases dec5Under_cases cfg.overflow d with ⟨w, hw⟩ | ⟨hover, hfault, hvalue⟩
  · rw [hw] at h
    cases h
  · rw [hover] at h
    cases h
    exact ⟨rfl, hfault, hvalue⟩

/-- The error of group `g` ends the loop, when the groups before it raise no other (R75, R78). -/
theorem decodeGroups_of_group_error {cfg : Config} {ts : List TextGroup} {g q : Nat} {t : TextGroup} {e : Raise}
    (hg : ts[g]? = some t) (he : decGrp cfg t (q + 5 * g) = .error e)
    (hbefore : ∀ j < g, ∀ u, ts[j]? = some u → ∀ r e', decGrp cfg u r = .error e' → e' = e) :
    decodeGroups cfg ts q = .error e := by
  induction ts generalizing g q with
  | nil => cases hg
  | cons u ts ih =>
    cases g with
    | zero =>
      cases hg
      rw [Nat.mul_zero, Nat.add_zero] at he
      rw [decodeGroups, he]
      rfl
    | succ g =>
      rw [decodeGroups]
      cases hu : decGrp cfg u q with
      | error e' =>
        rw [hbefore 0 (Nat.succ_pos g) u rfl q e' hu]
        rfl
      | ok b =>
        have hrest : decodeGroups cfg ts (q + 5) = .error e :=
          ih hg (by rwa [Nat.add_assoc, Nat.add_comm 5]) fun j hj => hbefore (j + 1) (Nat.succ_lt_succ hj)
        rw [hrest]
        rfl

theorem memRead_eq_textFrame {f : Frame} (halign : f.length % 5 = 0) {g : Nat} {t : TextGroup}
    (hg : (groupsOf f)[g]? = some t) : memRead f (5 * g) 5 = textFrame t := by
  rw [memRead_groupsOf f halign, hg]
  rfl

/-- A whole group within the first `n` octets of a frame is made of them. -/
theorem textFrame_subset_take {f : Frame} (halign : f.length % 5 = 0) {g n : Nat} {t : TextGroup}
    (hg : (groupsOf f)[g]? = some t) (hn : 5 * g + 5 ≤ n) : textFrame t ⊆ f.take n := by
  rw [← memRead_eq_textFrame halign hg, memRead, List.take_drop]
  exact fun c hc => List.take_subset_take_left f hn (List.mem_of_mem_drop hc)

/-- A group with only members before it ends DECODE with its error, when that is what any overflow before it raises too. -/
theorem decodeFrame_of_group_error {cfg : Config} {f : Frame} {g : Nat} {t : TextGroup} {e : Raise}
    (halign : f.length % 5 = 0) (hg : (groupsOf f)[g]? = some t) (he : decGrp cfg t (5 * g) = .error e)
    (hmembers : ∀ c ∈ f.take (5 * g), isMember cfg.alphabet c = true)
    (hoverflow : cfg.overflow = .fault → ∀ j < g, ∀ d, holdsGroup cfg.alphabet f j d → 2 ^ 32 ≤ valueOf d →
      e = .overflow) : decodeFrame cfg f = .error e := by
  rw [decodeFrame, if_pos halign]
  refine decodeGroups_of_group_error hg (by rwa [Nat.zero_add]) fun j hj u hu r e' he' => ?_
  obtain ⟨d, hd⟩ := digitsOf_of_members fun c hc => hmembers c (textFrame_subset_take halign hu (by omega) hc)
  obtain ⟨rfl, hfault, hvalue⟩ := decGrp_error_of_digits hd he'
  exact (hoverflow hfault j hj d ((holdsGroup_iff_digitsOf halign hu).2 hd) hvalue).symm

/-- Settles O27: an overflowing group raises the overflow, and so does any before it. -/
theorem decodeUnderFaultFaultsOnAnOverflowingGroup : Obligations.DecodeUnderFaultFaultsOnAnOverflowingGroup := by
  intro s f g d haccepts halign hfault hg hd hvalue hmembers
  rw [← groupsOf_length] at hg
  have ht := List.getElem?_eq_getElem hg
  have he : decGrp s.cfg (groupsOf f)[g] (5 * g) = .error .overflow := by
    rw [decGrp_of_digits ((holdsGroup_iff_digitsOf halign ht).1 hd), hfault, dec5Under_fault hvalue]
    rfl
  rw [exec_decode_of_accepts haccepts, decodeFrame_of_group_error halign ht he hmembers fun _ _ _ _ _ _ => rfl]
  rfl

/-- DECODE of a right length reports the lowest non-member, unless an overflow before it faults (R77). -/
theorem decodeFrame_of_lowest_nonMember {cfg : Config} {f : Frame} {p : Nat} {c : Byte} (halign : f.length % 5 = 0)
    (hc : f[p]? = some c) (hnon : isMember cfg.alphabet c = false)
    (hbefore : ∀ x ∈ f.take p, isMember cfg.alphabet x = true)
    (hpolicy : cfg.overflow ≠ .fault ∨
      ∀ g, g < p / 5 → ∀ d, holdsGroup cfg.alphabet f g d → valueOf d < 2 ^ 32) :
    decodeFrame cfg f = .error (.invalidCharacter c p) := by
  obtain ⟨hp, -⟩ := List.getElem?_eq_some_iff.1 hc
  have hindex : 5 * (p / 5) + p % 5 = p := Nat.div_add_mod p 5
  have hg : p / 5 < (groupsOf f).length := by rw [groupsOf_length]; omega
  have ht := List.getElem?_eq_getElem hg
  have hread := memRead_eq_textFrame halign ht
  have hfirst : firstNonMember cfg.alphabet (textFrame (groupsOf f)[p / 5]) (5 * (p / 5)) = some (c, p) := by
    have hchar : (textFrame (groupsOf f)[p / 5])[p % 5]? = some c := by
      rw [← hread, ← getElem?_memRead (Nat.mod_lt p (by decide)), hindex, hc]
    have hmembers : ∀ x ∈ (textFrame (groupsOf f)[p / 5]).take (p % 5), isMember cfg.alphabet x = true := by
      intro x hx
      rw [← hread, memRead, List.take_take, List.take_drop] at hx
      exact hbefore x (List.take_subset_take_left f (by omega) (List.mem_of_mem_drop hx))
    rw [firstNonMember_of_lowest (5 * (p / 5)) hchar hnon hmembers, hindex]
  refine decodeFrame_of_group_error halign ht (decGrp_of_firstNonMember hfirst)
    (fun x hx => hbefore x (List.take_subset_take_left f (by omega) hx)) fun hfault j hj d hd hvalue => ?_
  exact absurd hvalue (Nat.not_le.2 ((hpolicy.resolve_left (not_not_intro hfault)) j hj d hd))

/-- Settles O28: the response is the error of the non-member's group. -/
theorem decodeReportsTheLowestNonMember : Obligations.DecodeReportsTheLowestNonMember := by
  intro s f p c haccepts halign hc hnon hbefore hpolicy
  rw [exec_decode_of_accepts haccepts, decodeFrame_of_lowest_nonMember halign hc hnon hbefore hpolicy]
  rfl

/-- Settles O31: without FAULT the group loop reports the same lowest non-member as the upfront pass. -/
theorem upfrontValidationGivesTheSameResponse : Obligations.UpfrontValidationGivesTheSameResponse := by
  intro cfg f hpolicy
  rw [decodeUpfront]
  split
  next halign =>
    split
    next c p hfirst =>
      obtain ⟨i, rfl, hc, hnon, hbefore⟩ := firstNonMember_sound hfirst
      rw [Nat.zero_add, decodeFrame_of_lowest_nonMember halign hc hnon hbefore (.inl hpolicy)]
    next => rw [decodeFrame, if_pos halign]
  next halign => rw [decodeFrame_of_unaligned halign]

end Sys2Proof.Machine
end

section
/-! SUPPORT. DECODE group by group: each text group has its own block, wherever it stands (R76, R95). -/

namespace Sys2Proof.Machine

/-- Where a group decodes to a block it does so at every frame index: the index is only for the error (R74). -/
theorem decGrp_ok_anywhere {cfg : Config} {t : TextGroup} {q : Nat} {b : Block} (h : decGrp cfg t q = .ok b) (r : Nat) :
    decGrp cfg t r = .ok b := by
  cases hfirst : firstNonMember cfg.alphabet (textFrame t) q with
  | some found =>
    rw [decGrp_of_firstNonMember hfirst] at h
    cases h
  | none =>
    obtain ⟨d, hd⟩ := digitsOf_of_members (firstNonMember_eq_none.1 hfirst)
    rw [decGrp_of_digits hd] at h ⊢
    exact h

/-- The block a text group decodes to, if it does. -/
def groupBlock (cfg : Config) (t : TextGroup) : Option Block := (decGrp cfg t 0).toOption

theorem groupBlock_eq_some_iff {cfg : Config} {t : TextGroup} {b : Block} (q : Nat) :
    groupBlock cfg t = some b ↔ decGrp cfg t q = .ok b := by
  have hzero : groupBlock cfg t = some b ↔ decGrp cfg t 0 = .ok b := by
    rw [groupBlock]
    cases decGrp cfg t 0 <;> simp [Except.toOption]
  exact hzero.trans ⟨fun h => decGrp_ok_anywhere h q, fun h => decGrp_ok_anywhere h 0⟩

/-- The group loop gives a frame exactly when every group has a block, and then it is the frame of those blocks. -/
theorem decodeGroups_eq_ok_iff {cfg : Config} {ts : List TextGroup} {q : Nat} {out : Frame} :
    decodeGroups cfg ts q = .ok out ↔
      ∃ bs : List Block, ts.map (groupBlock cfg) = bs.map some ∧ out = bs.flatMap blockFrame := by
  induction ts generalizing q out with
  | nil =>
    constructor
    · rintro ⟨⟩
      exact ⟨[], rfl, rfl⟩
    · rintro ⟨bs, hbs, rfl⟩
      obtain rfl := List.map_eq_nil_iff.1 hbs.symm
      rfl
  | cons t ts ih =>
    constructor
    · intro h
      obtain ⟨b, rest, hb, hrest, rfl⟩ := decodeGroups_cons_ok h
      obtain ⟨bs, hbs, rfl⟩ := ih.1 hrest
      exact ⟨b :: bs, by rw [List.map_cons, List.map_cons, (groupBlock_eq_some_iff q).2 hb, hbs], rfl⟩
    · rintro ⟨bs, hbs, rfl⟩
      cases bs with
      | nil => cases hbs
      | cons b bs =>
        obtain ⟨hb, hrest⟩ := List.cons.inj hbs
        rw [decodeGroups, (groupBlock_eq_some_iff q).1 hb, ih.2 ⟨bs, hrest, rfl⟩]
        rfl

theorem groupsOf_append_of_aligned {x y : Frame} (hx : x.length % 5 = 0) (hy : y.length % 5 = 0) :
    groupsOf (x ++ y) = groupsOf x ++ groupsOf y := by
  conv_lhs => rw [← flatMap_groupsOf x hx, ← flatMap_groupsOf y hy, ← List.flatMap_append, groupsOf_flatMap]

theorem decodeFrame_length {cfg : Config} {f out : Frame} (h : decodeFrame cfg f = .ok out) :
    out.length = f.length / 5 * 4 := by
  obtain ⟨-, hgroups⟩ := decodeFrame_ok h
  rw [decodeGroups_length hgroups, groupsOf_length, Nat.mul_comm]

/-- Block `g` of the output is the block of group `g`, and there are no others (R76). -/
theorem memRead_decodeFrame {cfg : Config} {f out : Frame} (h : decodeFrame cfg f = .ok out) (g : Nat) :
    memRead out (4 * g) 4 = (((groupsOf f)[g]?).bind (groupBlock cfg)).elim [] blockFrame := by
  obtain ⟨-, hgroups⟩ := decodeFrame_ok h
  obtain ⟨bs, hbs, rfl⟩ := decodeGroups_eq_ok_iff.1 hgroups
  have hblock : ((groupsOf f)[g]?).bind (groupBlock cfg) = bs[g]? := by
    simpa only [List.getElem?_map, Option.bind_map, Function.id_comp, Option.bind_fun_some] using
      congrArg (fun l => l[g]?.bind id) hbs
  rw [memRead_flatMap bs blockFrame 4 (fun _ => rfl), hblock]

/-- Equal text groups of two decoded frames give equal blocks, out of range too, where both reads are empty. -/
theorem memRead_decodeFrame_congr {cfg : Config} {x y outX outY : Frame} {g h : Nat} (hx : decodeFrame cfg x = .ok outX)
    (hy : decodeFrame cfg y = .ok outY) (hgroup : memRead x (5 * g) 5 = memRead y (5 * h) 5) :
    memRead outX (4 * g) 4 = memRead outY (4 * h) 4 := by
  obtain ⟨halignX, -⟩ := decodeFrame_ok hx
  obtain ⟨halignY, -⟩ := decodeFrame_ok hy
  rw [memRead_groupsOf x halignX, memRead_groupsOf y halignY,
    elim_pieces_inj (fun _ _ => textFrame_injective) (fun _ => List.cons_ne_nil _ _)] at hgroup
  rw [memRead_decodeFrame hx, memRead_decodeFrame hy, hgroup]

theorem decodeFrame_append {cfg : Config} {x y outX outY : Frame} (hx : decodeFrame cfg x = .ok outX)
    (hy : decodeFrame cfg y = .ok outY) : decodeFrame cfg (x ++ y) = .ok (outX ++ outY) := by
  obtain ⟨halignX, hgroupsX⟩ := decodeFrame_ok hx
  obtain ⟨halignY, hgroupsY⟩ := decodeFrame_ok hy
  obtain ⟨blocksX, hblocksX, rfl⟩ := decodeGroups_eq_ok_iff.1 hgroupsX
  obtain ⟨blocksY, hblocksY, rfl⟩ := decodeGroups_eq_ok_iff.1 hgroupsY
  have halign : (x ++ y).length % 5 = 0 := by rw [List.length_append]; omega
  rw [decodeFrame, if_pos halign, groupsOf_append_of_aligned halignX halignY]
  exact decodeGroups_eq_ok_iff.2 ⟨blocksX ++ blocksY, by rw [List.map_append, hblocksX, hblocksY, List.map_append],
    List.flatMap_append.symm⟩

/-- Settles O30: DECODE is the block of each group in order, and a group's block depends on nothing else. -/
theorem decodeGroupsAreIndependent : Obligations.DecodeGroupsAreIndependent :=
  fun _ => ⟨fun _ _ h => decodeFrame_length h, fun _ _ _ _ _ _ hx hy h => memRead_decodeFrame_congr hx hy h,
    fun _ _ _ _ hx hy => decodeFrame_append hx hy⟩

end Sys2Proof.Machine
end

section
/-! SUPPORT. `value(d)` numbers the groups in dictionary order, and every number below 85^5 is the value of one (R81). -/

namespace Sys2Proof.Machine

/-- All five digits are at most 84. -/
theorem valueOf_le (d : Group) : valueOf d ≤ 4437053124 := by
  simp only [valueOf]
  omega

/-- The base-85 digits of a number, most significant first. -/
def groupOfValue (n : Nat) : Group :=
  ⟨Fin.ofNat 85 (n / 85 ^ 4), Fin.ofNat 85 (n / 85 ^ 3), Fin.ofNat 85 (n / 85 ^ 2), Fin.ofNat 85 (n / 85), Fin.ofNat 85 n⟩

theorem valueOf_groupOfValue {n : Nat} (h : n ≤ 4437053124) : valueOf (groupOfValue n) = n := by
  simp only [valueOf, groupOfValue, Fin.val_ofNat]
  omega

theorem valueOf_eq_iff {d e : Group} : valueOf d = valueOf e ↔ d = e :=
  ⟨valueOf_injective, congrArg valueOf⟩

/-- The first digit that differs outweighs all digits after it (R81). -/
theorem dictBefore_iff {d e : Group} : dictBefore d e ↔ valueOf d < valueOf e := by
  simp only [dictBefore, valueOf, Fin.lt_def, Fin.ext_iff]
  omega

/-- Settles O11: the digits of a number are its one group, and dictionary order is the order of values. -/
theorem valueCountsGroupsInDictionaryOrder : Obligations.ValueCountsGroupsInDictionaryOrder := by
  refine ⟨fun d => ?_, valueOf_le, fun n hn => ?_, fun _ _ => dictBefore_iff⟩
  · simp only [valueOf, Nat.reducePow, Nat.mul_comm]
  · have hvalue := valueOf_groupOfValue hn
    exact ⟨groupOfValue n, hvalue, fun e he => valueOf_injective (he.trans hvalue.symm)⟩

end Sys2Proof.Machine
end

section
/-! SUPPORT. ENC32 and its image: the digits of a word, and the groups that do not overflow (R82, R83). -/

namespace Sys2Proof.Machine

/-- Settles O9: the digits and the value of ENC32, and the quotient that five divisions leave of 32 bits. -/
theorem enc32ClosedForm : Obligations.Enc32ClosedForm := by
  intro w
  have hw := w.isLt
  refine ⟨enc32_digits w, valueOf_enc32 w, ?_, by omega⟩
  simp only [quotient_toNat, Nat.div_div_eq_div_mul, Nat.reduceMul, Nat.reducePow]

/-- A group that does not overflow is ENC32 of its value (R83). -/
theorem exists_enc32_eq_iff {d : Group} : (∃ w, enc32 w = d) ↔ valueOf d < 2 ^ 32 := by
  constructor
  · rintro ⟨w, rfl⟩
    rw [valueOf_enc32]
    exact w.isLt
  · exact fun h => ⟨dec5 d, enc32_dec5 h⟩

/-- The groups that do not overflow end with the one of value 2^32 - 1 (R83). -/
theorem valueOf_lt_word_iff {d : Group} :
    valueOf d < 2 ^ 32 ↔ dictBefore d ⟨82, 23, 54, 12, 0⟩ ∨ d = ⟨82, 23, 54, 12, 0⟩ := by
  have hlast : valueOf ⟨82, 23, 54, 12, 0⟩ = 2 ^ 32 - 1 := by decide
  rw [dictBefore_iff, ← valueOf_eq_iff, hlast]
  omega

theorem enc32_d0_le (w : Word) : (enc32 w).d0.val ≤ 82 := by
  have hvalue := valueOf_enc32 w
  have hw := w.isLt
  rw [valueOf] at hvalue
  omega

/-- The character of a digit above 82 never stands first in a group (R83). -/
theorem encBlk_c0_ne {a : Alphabet} (ha : meetsSource a = true) {c : Byte} {v : Digit} (hv : valOf a c = some v)
    (hlarge : 82 < v.val) (b : Block) : (encBlk a b).c0 ≠ c := by
  rintro rfl
  have hd0 : some (enc32 (be32 b)).d0 = some v := (valOf_symOf ha _).symm.trans hv
  have hle := enc32_d0_le (be32 b)
  rw [Option.some.inj hd0] at hle
  omega

/-- With 0 in front the other four digits are free. -/
theorem exists_enc32_of_low_digits (v : Digit) : ∃ w, enc32 w = ⟨0, v, v, v, v⟩ := by
  refine exists_enc32_eq_iff.2 ?_
  simp only [valueOf, Fin.val_zero]
  omega

/-- Settles O10: a group is an image exactly when its value is a word, and the rest is read off the values. -/
theorem enc32RangeIsTheGroupsThatDoNotOverflow : Obligations.Enc32RangeIsTheGroupsThatDoNotOverflow := by
  have hsource := meetsSource_of_admissible admissible_defaultAlphabet
  have hdollar : valOf defaultAlphabet 0x24#8 = some 83 := by decide
  have hhash : valOf defaultAlphabet 0x23#8 = some 84 := by decide
  refine ⟨fun _ => exists_enc32_eq_iff, fun _ => valueOf_lt_word_iff, by decide, enc32_d0_le, fun b =>
    ⟨encBlk_c0_ne hsource hdollar (by decide) b, encBlk_c0_ne hsource hhash (by decide) b⟩, fun v => ?_⟩
  obtain ⟨w, hw⟩ := exists_enc32_of_low_digits v
  exact ⟨⟨w, by rw [hw]⟩, ⟨w, by rw [hw]⟩, ⟨w, by rw [hw]⟩, ⟨w, by rw [hw]⟩⟩

end Sys2Proof.Machine
end

section
/-! SUPPORT. DEC5 and its wrap, and how it and ENC32 undo each other (R84 to R87, R89). -/

namespace Sys2Proof.Machine

/-- No group reaches twice the word, so reducing its value takes 2^32 away at most once. -/
theorem dec5_toNat_of_overflow {d : Group} (h : 2 ^ 32 ≤ valueOf d) : (dec5 d).toNat + 2 ^ 32 = valueOf d := by
  have hle := valueOf_le d
  rw [dec5_toNat]
  omega

/-- Settles O14: the fold is the value modulo 2^32, and the value is below twice that. -/
theorem dec5ClosedForm : Obligations.Dec5ClosedForm :=
  fun d => ⟨dec5_toNat d, fun h => by rw [dec5_toNat, Nat.mod_eq_of_lt h], dec5_toNat_of_overflow⟩

/-- A fold that stays below the word is exact (R85). -/
theorem foldDigit_toNat_of_lt {acc : Word} {v : Digit} {n : Nat} (hacc : acc.toNat = n)
    (h : (n + v.val) * 85 < 2 ^ 32) : (foldDigit acc v).toNat = (n + v.val) * 85 := by
  rw [foldDigit_toNat, hacc, Nat.mod_eq_of_lt h]

/-- Settles O15: three exact folds, then the one multiply and the one add that can wrap. -/
theorem dec5WrapsAtMostOnceAndWhere : Obligations.Dec5WrapsAtMostOnceAndWhere := by
  intro d p hp
  have h1 : (foldDigit 0#32 d.d0).toNat = d.d0.val * 85 := by
    rw [foldDigit_toNat_of_lt (n := 0) rfl (by omega), Nat.zero_add]
  have h2 := foldDigit_toNat_of_lt (v := d.d1) h1 (by omega)
  have h3 := foldDigit_toNat_of_lt (v := d.d2) h2 (by omega)
  have h4 : (foldDigit (foldDigit (foldDigit 0#32 d.d0) d.d1) d.d2 + digitWord d.d3).toNat = p := by
    rw [BitVec.toNat_add, h3, digitWord_toNat]
    omega
  have h5 : (foldFour d).toNat = p * 85 % 2 ^ 32 := by
    rw [foldFour, foldDigit_toNat, h3]
    omega
  have hvalue : valueOf d = p * 85 + d.d4.val := by
    rw [valueOf]
    omega
  refine ⟨h1, h2, h3, h4, ?_⟩
  rcases Nat.lt_or_ge p 50529028 with hlt | hge
  · have hexact : (foldFour d).toNat = p * 85 := h5.trans (Nat.mod_eq_of_lt (by omega))
    omega
  · have hwrap : (foldFour d).toNat + 2 ^ 32 = p * 85 := by omega
    omega

/-- Settles O16: the value of ENC32 of a word is that word. -/
theorem dec5UndoesEnc32 : Obligations.Dec5UndoesEnc32 := dec5_enc32

theorem enc32_dec5_eq_iff {d : Group} : enc32 (dec5 d) = d ↔ valueOf d < 2 ^ 32 :=
  ⟨fun h => exists_enc32_eq_iff.1 ⟨dec5 d, h⟩, enc32_dec5⟩

/-- Settles O17: ENC32 has only groups that do not overflow to give back. -/
theorem enc32UndoesDec5ExactlyBelowTheWord : Obligations.Enc32UndoesDec5ExactlyBelowTheWord := by
  refine fun d => ⟨enc32_dec5_eq_iff, fun hover => ⟨?_, fun h => ?_⟩⟩
  · rw [valueOf_enc32, dec5_toNat_of_overflow hover]
  · exact absurd hover (Nat.not_le.2 (enc32_dec5_eq_iff.1 h))

/-- Under WRAP_EXACT a group decodes to the word that its value is modulo 2^32, and only the word itself and the word plus
2^32 are in range (R89). -/
theorem dec5Under_wrapExact_eq_ok_iff {d : Group} {w : Word} :
    dec5Under .wrapExact d = .ok w ↔ d = enc32 w ∨ valueOf d = w.toNat + 2 ^ 32 := by
  have hle := valueOf_le d
  have hw := w.isLt
  rw [dec5Under_ok (.inl rfl), Except.ok.injEq, ← BitVec.toNat_inj, dec5_toNat, ← valueOf_eq_iff, valueOf_enc32]
  omega

/-- Settles O18: the second group of a word exists while the word plus 2^32 is still the value of a group. -/
theorem dec5IsTwoToOneOnTheSmallWords : Obligations.Dec5IsTwoToOneOnTheSmallWords := by
  refine ⟨fun w hw => ?_, fun w hw d => ?_, by decide⟩
  · obtain ⟨e, he⟩ : ∃ e, valueOf e = w.toNat + 2 ^ 32 := ⟨_, valueOf_groupOfValue (by omega)⟩
    refine ⟨e, he, fun h => ?_, fun d => ?_⟩
    · rw [h, valueOf_enc32] at he
      omega
    · rw [dec5Under_wrapExact_eq_ok_iff, ← he, valueOf_eq_iff]
  · have hle := valueOf_le d
    exact dec5Under_wrapExact_eq_ok_iff.trans (or_iff_left (by omega))

end Sys2Proof.Machine
end

section
/-! SUPPORT. The inverse laws of the look-ups, of one group, and of whole frames (R88, R90 to R92). -/

namespace Sys2Proof.Machine

theorem mem_alphabet_iff {a : Alphabet} {c : Byte} : c ∈ a.toList ↔ ∃ v, symOf a v = c := by
  rw [Vector.mem_toList_iff, Vector.mem_iff_getElem]
  exact ⟨fun ⟨i, hi, h⟩ => ⟨⟨i, hi⟩, h⟩, fun ⟨v, h⟩ => ⟨v.val, v.isLt, h⟩⟩

/-- Settles O7: the members are the characters SYM gives, and VAL undoes SYM. -/
theorem symAndValAreInverses : Obligations.SymAndValAreInverses := by
  refine fun a ha => ⟨valOf_symOf ha, fun c hc => ?_, fun c hc => ?_⟩
  · obtain ⟨v, rfl⟩ := mem_alphabet_iff.1 hc
    exact ⟨v, valOf_symOf ha v, rfl⟩
  · exact (valOf_eq_none_iff ha).2 fun v hv => hc (mem_alphabet_iff.2 ⟨v, hv⟩)

/-- Settles O20: DECGRP of a group that does not overflow is the split of its word, from which ENCBLK writes it back. -/
theorem textGroupsOfWordsAreABijection : Obligations.TextGroupsOfWordsAreABijection := by
  refine fun cfg base ha => ⟨fun b => decGrp_encBlk ha b base, fun t d hd hvalue => ?_⟩
  exact ⟨bytesBe (dec5 d), by rw [decGrp_of_digits hd, dec5Under_ok (.inr hvalue)]; rfl, encBlk_of_digits hd hvalue⟩

/-- Settles O33: ENCODE of an aligned frame answers a text that DECODE undoes. -/
theorem binaryRoundTrip : Obligations.BinaryRoundTrip := by
  intro s b ha halign
  have hencode := encodeFrame_of_aligned (cfg := s.cfg) halign
  have hdecode := decodeFrame_of_encodeFrame ha hencode
  refine ⟨_, hencode, hdecode, fun h => ?_, fun h => ?_⟩
  · rw [exec_encode_of_accepts h, hencode]
    rfl
  · rw [exec_decode_of_accepts h, hdecode]
    rfl

/-- ENCBLK of what a group decodes to is the group itself exactly when it does not overflow (R87, R92). -/
theorem encBlk_dec5_eq_iff {a : Alphabet} (ha : meetsSource a = true) {t : TextGroup} {d : Group}
    (hd : digitsOf a t = some d) : encBlk a (bytesBe (dec5 d)) = t ↔ valueOf d < 2 ^ 32 := by
  refine ⟨fun h => enc32_dec5_eq_iff.1 ?_, encBlk_of_digits hd⟩
  rw [← h, digitsOf_encBlk ha, be32_bytesBe] at hd
  exact Option.some.inj hd

/-- Every group of a text frame holds digits. -/
theorem exists_holdsGroup {a : Alphabet} {f : Frame} (htext : isTextFrame a f = true) {t : TextGroup}
    (ht : t ∈ groupsOf f) : ∃ g d, g < f.length / 5 ∧ holdsGroup a f g d ∧ digitsOf a t = some d := by
  obtain ⟨halign, hmembers⟩ := isTextFrame_iff.1 htext
  obtain ⟨d, hd⟩ := digitsOf_of_members fun c hc => hmembers c (mem_of_mem_groupsOf halign ht c hc)
  obtain ⟨g, hg⟩ := List.mem_iff_getElem?.1 ht
  obtain ⟨hlt, -⟩ := List.getElem?_eq_some_iff.1 hg
  exact ⟨g, d, groupsOf_length f ▸ hlt, (holdsGroup_iff_digitsOf halign hg).2 hd, hd⟩

/-- A text frame none of whose groups overflows is ENCODE of some frame, which DECODE gives back (R92). -/
theorem textRoundTrip_of_no_overflow {cfg : Config} {t : Frame} (ha : meetsSource cfg.alphabet = true)
    (htext : isTextFrame cfg.alphabet t = true)
    (hvalues : ∀ g, g < t.length / 5 → ∀ d, holdsGroup cfg.alphabet t g d → valueOf d < 2 ^ 32) :
    ∃ b, decodeFrame cfg t = .ok b ∧ encodeFrame cfg b = .ok t := by
  obtain ⟨halign, -⟩ := isTextFrame_iff.1 htext
  have hgroups : ∀ u ∈ groupsOf t, ∃ d, digitsOf cfg.alphabet u = some d ∧ valueOf d < 2 ^ 32 := by
    intro u hu
    obtain ⟨g, d, hg, hold, hd⟩ := exists_holdsGroup htext hu
    exact ⟨d, hd, hvalues g hg d hold⟩
  obtain ⟨b, hb, -⟩ := exists_encodeFrame_eq hgroups
  rw [flatMap_groupsOf t halign] at hb
  exact ⟨b, decodeFrame_of_encodeFrame ha hb, hb⟩

/-- Under WRAP_EXACT every text frame comes back, but for the groups that overflow (R92). -/
theorem textRoundTrip_of_wrapExact {cfg : Config} {t : Frame} (ha : meetsSource cfg.alphabet = true)
    (htext : isTextFrame cfg.alphabet t = true) (hpolicy : cfg.overflow = .wrapExact) :
    ∃ b t', decodeFrame cfg t = .ok b ∧ encodeFrame cfg b = .ok t' ∧ isTextFrame cfg.alphabet t' = true ∧
      t'.length = t.length ∧ ∀ g, g < t.length / 5 → ∀ d, holdsGroup cfg.alphabet t g d →
        (memRead t' (5 * g) 5 = memRead t (5 * g) 5 ↔ valueOf d < 2 ^ 32) := by
  obtain ⟨halign, -⟩ := isTextFrame_iff.1 htext
  have hdec5 : ∀ d, dec5Under cfg.overflow d = .ok (dec5 d) := fun _ => dec5Under_ok (.inl hpolicy)
  obtain ⟨b, hdecode, hlen, hblocks⟩ := decodeFrame_of_text htext fun _ _ d _ => ⟨_, hdec5 d⟩
  have halignB : b.length % 4 = 0 := by omega
  have hencode := encodeFrame_of_aligned (cfg := cfg) halignB
  refine ⟨b, _, hdecode, hencode, encodeFrame_isTextFrame hencode, ?_, fun g hg d hold => ?_⟩
  · rw [encodeFrame_length hencode]
    omega
  · obtain ⟨w, hw, -, hblock⟩ := hblocks g hg d hold
    obtain rfl : dec5 d = w := Except.ok.inj ((hdec5 d).symm.trans hw)
    rw [← groupsOf_length] at hg
    have hgroup := List.getElem?_eq_getElem hg
    have hinj : Function.Injective textFrame := fun _ _ => textFrame_injective
    rw [memRead_encodeFrame hencode, (memRead_eq_blockFrame_iff halignB).1 hblock, memRead_eq_textFrame halign hgroup,
      Option.elim_some, hinj.eq_iff]
    exact encBlk_dec5_eq_iff ha ((holdsGroup_iff_digitsOf halign hgroup).1 hold)

/-- Settles O34: the two round trips of a text frame, and the example of R92. -/
theorem textRoundTripExceptOverflowingGroups : Obligations.TextRoundTripExceptOverflowingGroups :=
  ⟨fun _ _ ha htext hvalues => textRoundTrip_of_no_overflow ha htext hvalues,
    fun _ _ ha htext hpolicy => textRoundTrip_of_wrapExact ha htext hpolicy, by decide, by decide⟩

end Sys2Proof.Machine
end

section
/-! SUPPORT. The lengths of the frame operations, and which of their errors comes first (R93, R94, R96, R103). -/

namespace Sys2Proof.Machine

/-- Settles O35: five characters for every four octets of an aligned frame. -/
theorem lengthLaws : Obligations.LengthLaws := by
  refine fun cfg f out => ⟨fun h => ?_, fun h => ?_⟩
  · obtain ⟨halign, -⟩ := encodeFrame_ok h
    rw [encodeFrame_length h]
    omega
  · obtain ⟨halign, -⟩ := decodeFrame_ok h
    rw [decodeFrame_length h]
    omega

/-- LengthError is presented for that raise and for no other end of an operation. -/
theorem answer_eq_lengthError_iff {r : Except Raise Frame} {s : State} :
    answer r s = .next (present .lengthError s) ↔ r = .error .lengthError := by
  refine ⟨fun h => ?_, fun h => by rw [h]; rfl⟩
  rcases r with (_ | ⟨c, p⟩ | _) | out
  · rfl
  · cases congrArg State.hs (Host.Outcome.next.inj h)
  · cases h
  · cases congrArg State.hs (Host.Outcome.next.inj h)

/-- ENCODE has one error, and one way to it. -/
theorem encodeFrame_eq_error_iff {cfg : Config} {f : Frame} {e : Raise} :
    encodeFrame cfg f = .error e ↔ f.length % 4 ≠ 0 ∧ e = .lengthError := by
  by_cases halign : f.length % 4 = 0
  · simp [encodeFrame_of_aligned halign, halign]
  · simp [encodeFrame_of_unaligned halign, halign, eq_comm]

theorem decodeFrame_eq_lengthError_iff {cfg : Config} {f : Frame} :
    decodeFrame cfg f = .error .lengthError ↔ f.length % 5 ≠ 0 := by
  refine ⟨fun h halign => ?_, decodeFrame_of_unaligned⟩
  rw [decodeFrame, if_pos halign] at h
  exact decodeGroups_error h rfl

/-- Settles O24: the length check raises LengthError, and nothing after it does. -/
theorem lengthGuards : Obligations.LengthGuards := by
  intro s f haccepts
  rw [exec_encode_of_accepts haccepts, exec_decode_of_accepts haccepts]
  exact ⟨answer_eq_lengthError_iff.trans (encodeFrame_eq_error_iff.trans (and_iff_left rfl)),
    answer_eq_lengthError_iff.trans decodeFrame_eq_lengthError_iff⟩

/-- A group that decodes is made of members, under every policy. -/
theorem members_of_decGrp_ok {cfg : Config} {t : TextGroup} {q : Nat} {b : Block} (h : decGrp cfg t q = .ok b) :
    ∀ c ∈ textFrame t, isMember cfg.alphabet c = true := by
  cases hfirst : firstNonMember cfg.alphabet (textFrame t) q with
  | some found =>
    rw [decGrp_of_firstNonMember hfirst] at h
    cases h
  | none => exact firstNonMember_eq_none.1 hfirst

theorem members_of_decodeGroups_ok {cfg : Config} {ts : List TextGroup} {q : Nat} {out : Frame}
    (h : decodeGroups cfg ts q = .ok out) : ∀ c ∈ ts.flatMap textFrame, isMember cfg.alphabet c = true := by
  induction ts generalizing q out with
  | nil => exact nofun
  | cons t ts ih =>
    obtain ⟨b, rest, hb, hrest, -⟩ := decodeGroups_cons_ok h
    exact List.forall_mem_append.2 ⟨members_of_decGrp_ok hb, ih hrest⟩

/-- What decodes is a text frame (R94). -/
theorem isTextFrame_of_decodeFrame_ok {cfg : Config} {f out : Frame} (h : decodeFrame cfg f = .ok out) :
    isTextFrame cfg.alphabet f = true := by
  obtain ⟨halign, hgroups⟩ := decodeFrame_ok h
  have hmembers := members_of_decodeGroups_ok hgroups
  rw [flatMap_groupsOf f halign] at hmembers
  exact isTextFrame_iff.2 ⟨halign, hmembers⟩

theorem exists_decodeFrame_ok {cfg : Config} (hpolicy : cfg.overflow ≠ .fault) {f : Frame}
    (htext : isTextFrame cfg.alphabet f = true) : ∃ out, decodeFrame cfg f = .ok out := by
  obtain ⟨out, hout, -⟩ := decodeFrame_of_text htext fun _ _ d _ =>
    (dec5Under_cases cfg.overflow d).resolve_right fun ⟨_, hfault, _⟩ => hpolicy hfault
  exact ⟨out, hout⟩

/-- A frame with a non-member has a lowest one. -/
theorem exists_lowest_nonMember {a : Alphabet} {f : Frame} (h : ∃ c ∈ f, isMember a c = false) :
    ∃ (p : Nat) (c : Byte), f[p]? = some c ∧ isMember a c = false ∧ ∀ x ∈ f.take p, isMember a x = true := by
  obtain ⟨x, hx, hnon⟩ := h
  cases hfirst : firstNonMember a f 0 with
  | none =>
    have hmember := firstNonMember_eq_none.1 hfirst x hx
    rw [hnon] at hmember
    cases hmember
  | some found =>
    obtain ⟨i, -, hlowest⟩ := firstNonMember_sound hfirst
    exact ⟨i, _, hlowest⟩

/-- Settles O29: the length check comes first, then the lowest non-member, and what is left decodes. -/
theorem decodeErrorPriority : Obligations.DecodeErrorPriority := by
  refine ⟨fun cfg f hpolicy => ⟨fun halign hmembers => ?_, fun halign hnon => ?_, decodeFrame_of_unaligned⟩,
    fun cfg f e h => (encodeFrame_eq_error_iff.1 h).2, fun cfg f ⟨c, hc, hnon⟩ out h => ?_⟩
  · exact exists_decodeFrame_ok hpolicy (isTextFrame_iff.2 ⟨halign, hmembers⟩)
  · obtain ⟨p, c, hc, hnon, hbefore⟩ := exists_lowest_nonMember hnon
    exact ⟨p, c, hc, hnon, hbefore, decodeFrame_of_lowest_nonMember halign hc hnon hbefore (.inl hpolicy)⟩
  · obtain ⟨-, hmembers⟩ := isTextFrame_iff.1 (isTextFrame_of_decodeFrame_ok h)
    rw [hmembers c hc] at hnon
    cases hnon

end Sys2Proof.Machine
end

section
/-! SUPPORT. What the handshake does beside the ports, one equation of a step for each of its moves (R117, R125, R128, R130). -/

namespace Sys2Proof.Machine

theorem handshakeMoves_of_rst {s : State} (hrst : s.rst = true) : handshakeMoves s = true := by
  rw [handshakeMoves, hrst, Bool.true_or]

theorem handshakeMoves_of_command {s : State} {c : Command} {rest : List Command} (hidle : s.hs = .idle)
    (hcmds : s.cmds = c :: rest) : handshakeMoves s = true := by
  simp [handshakeMoves, hidle, hcmds]

theorem handshakeMoves_of_busy {s : State} {c : Command} (hbusy : s.hs = .busy c) : handshakeMoves s = true := by
  simp [handshakeMoves, hbusy]

theorem handshakeMoves_of_taken {s : State} {r : Response} (hrespond : s.hs = .respond r) (hready : s.rspReady = true) :
    handshakeMoves s = true := by
  simp [handshakeMoves, hrespond, hready]

theorem handshakeMoves_of_idle {s : State} (hrst : s.rst = false) (hidle : s.hs = .idle) (hcmds : s.cmds = []) :
    handshakeMoves s = false := by
  simp [handshakeMoves, hrst, hidle, hcmds]

theorem handshakeMoves_of_untaken {s : State} {r : Response} (hrst : s.rst = false) (hrespond : s.hs = .respond r)
    (hready : s.rspReady = false) : handshakeMoves s = false := by
  simp [handshakeMoves, hrst, hrespond, hready]

theorem step_of_rst {s : State} (hrst : s.rst = true) : step s = .next (applyReset (servePorts s)) :=
  step_of_next (handshakeMoves_of_rst hrst) (stepBlock_of_rst hrst)

theorem step_of_command {s : State} {c : Command} {rest : List Command} (hrst : s.rst = false) (hidle : s.hs = .idle)
    (hcmds : s.cmds = c :: rest) (haccepts : accepts s.cfg c.input = true) :
    step s = .next (accept c rest (servePorts s)) :=
  step_of_next (handshakeMoves_of_command hidle hcmds) (stepBlock_of_command hrst hidle hcmds haccepts)

theorem step_of_busy_next {s t : State} {c : Command} (hrst : s.rst = false) (hbusy : s.hs = .busy c)
    (h : exec (decodeCommand c) (servePorts s) = .next t) : step s = .next t :=
  step_of_next (handshakeMoves_of_busy hbusy) ((stepBlock_of_busy (s := servePorts s) hrst hbusy).trans h)

theorem step_of_response {s : State} {c : Command} {r : Response} (hrst : s.rst = false) (hbusy : s.hs = .busy c)
    (haccepts : accepts s.cfg c.input = true) (hr : responseTo s.cfg c = some r) :
    step s = .next (present r (servePorts s)) :=
  step_of_busy_next hrst hbusy (exec_decodeCommand_of_response haccepts hr)

theorem step_of_taken {s : State} {r : Response} (hrst : s.rst = false) (hrespond : s.hs = .respond r)
    (hready : s.rspReady = true) : step s = .next (deliver r (servePorts s)) :=
  step_of_next (handshakeMoves_of_taken hrespond hready) (stepBlock_of_taken hrst hrespond hready)

/-- A refusal of the handshake's move waits for the answers of the step (log 11). -/
theorem step_of_refused_move {s : State} {r : Refusal} (hmoves : handshakeMoves s = true)
    (h : stepBlock (servePorts s) = .refused r) :
    step s = if portsAnswer s then .next (servePorts s) else .refused r := by
  rw [step, advance, if_pos hmoves, h]

/-- Where the handshake waits for the host, a step with an answer is the answers. -/
theorem step_of_answer_waits {s : State} (hanswer : portsAnswer s = true) (hwait : handshakeMoves s = false) :
    step s = .next (servePorts s) := by
  rw [step_of_answer hanswer, stepBlock_of_waits (s := servePorts s) hwait]

/-- Settles O42: acceptance is the handshake's move from what the ports leave; with no command it waits. -/
theorem idleAcceptsTheOldestCommand : Obligations.IdleAcceptsTheOldestCommand := fun _ hrst hidle =>
  ⟨fun _ _ hcmds haccepts => step_of_command hrst hidle hcmds haccepts,
    fun hprobes hcmds => step_of_quiet (handshakeMoves_of_idle hrst hidle hcmds) hprobes⟩

/-- Settles O43: delivery is the handshake's move from what the ports leave; without `rsp_ready` it waits. -/
theorem respondDeliversWhenTheHostIsReady : Obligations.RespondDeliversWhenTheHostIsReady := fun _ _ hrst hrespond =>
  ⟨fun hready => step_of_taken hrst hrespond hready,
    fun hprobes hready => step_of_quiet (handshakeMoves_of_untaken hrst hrespond hready) hprobes⟩

/-- Settles O44: under `rst` the handshake's move is the reset, and it never stops. -/
theorem resetInputIdlesAndDoesNothingElse : Obligations.ResetInputIdlesAndDoesNothingElse := by
  intro s hrst
  have hstep : step s = .next { servePorts s with hs := .idle } := step_of_rst hrst
  refine ⟨hstep, fun hprobes => ?_, fun t ht => ?_⟩
  · rw [hstep, servePorts_of_nil hprobes]
  · obtain rfl := Host.Outcome.next.inj (hstep.symm.trans ht)
    exact ⟨rfl, rfl, rfl, rfl, rfl, rfl⟩

/-- A move of the handshake leaves the queue alone and enters `BUSY` from nowhere else, or it takes the oldest command. -/
theorem stepBlock_takes_oldest {s t : State} (h : stepBlock s = .next t) :
    (t.cmds = s.cmds ∧ ∀ c, t.hs = .busy c → s.hs = .busy c) ∨
    (s.hs = .idle ∧ ∃ c, s.cmds = c :: t.cmds ∧ t.hs = .busy c ∧ accepts s.cfg c.input = true) := by
  rcases stepBlock_cases h with ⟨-, rfl⟩ | ⟨-, -, -, rfl⟩ | ⟨-, hidle, c, rest, hcmds, haccepts, rfl⟩ |
    ⟨-, c, -, -, r, -, rfl⟩ | ⟨-, r, -, -, rfl⟩ | ⟨-, r, -, -, rfl⟩
  case inr.inr.inl => exact .inr ⟨hidle, c, hcmds, rfl, haccepts⟩
  case inr.inl | inr.inr.inr.inr.inr => exact .inl ⟨rfl, fun _ hbusy => hbusy⟩
  case inl | inr.inr.inr.inl | inr.inr.inr.inr.inl => exact .inl ⟨rfl, nofun⟩

/-- Settles O45: the ports do not touch the queue, and the handshake takes its head only in `IDLE`. -/
theorem commandsWaitUntilIdle : Obligations.CommandsWaitUntilIdle := by
  intro s t h
  rcases step_cases h with hblock | rfl
  · exact stepBlock_takes_oldest (s := servePorts s) hblock
  · exact .inl ⟨rfl, fun _ hbusy => hbusy⟩

theorem accepts_eq_false_of_longer {cfg : Config} {input : Frame} {m : Nat} (hmax : cfg.maxLen = some m)
    (hlong : m < input.length) : accepts cfg input = false := by
  simpa [accepts, hmax] using hlong

theorem exec_decodeCommand_of_not_accepts {s : State} {c : Command} (h : accepts s.cfg c.input = false) :
    exec (decodeCommand c) s = .refused .frameTooLong := by
  rw [exec_decodeCommand, if_neg (by simp [h])]

theorem stepBlock_of_refused_command {s : State} {c : Command} {rest : List Command} (hrst : s.rst = false)
    (hidle : s.hs = .idle) (hcmds : s.cmds = c :: rest) (h : accepts s.cfg c.input = false) :
    stepBlock s = .refused .frameTooLong := by
  rw [stepBlock_of_released hrst, stepHandshake_of_idle hidle, stepIdle, hcmds]
  exact if_neg (by simp [h])

/-- Settles O32: the bound is checked before the length, by the operation and by the acceptance alike. -/
theorem frameAboveMaxLenIsRefused : Obligations.FrameAboveMaxLenIsRefused := by
  intro s input m hmax hlong
  have hnot := accepts_eq_false_of_longer hmax hlong
  exact ⟨exec_decodeCommand_of_not_accepts (c := ⟨0#1, input⟩) hnot,
    exec_decodeCommand_of_not_accepts (c := ⟨1#1, input⟩) hnot, fun _ _ hrst hidle hcmds =>
      step_of_refused_move (handshakeMoves_of_command hidle hcmds)
        (stepBlock_of_refused_command (s := servePorts s) hrst hidle hcmds hnot)⟩

end Sys2Proof.Machine
end

section
/-! SUPPORT. The ports and the handshake leave each other alone: an operand's answer is its operation's result, and the
handshake's move is the same whatever stands on the ports (R58, R117, R125, R128). -/

namespace Sys2Proof.Machine

theorem reply_injective {s : State} {r r' : PortResult} (h : reply r s = reply r' s) : r = r' := by
  simpa using congrArg State.portResults h

theorem portAnswer_eq_some_iff {s : State} {p : PortWord} {i : Instr} (hp : decodePort p = .ok i) (r : PortResult) :
    portAnswer s p = some r ↔ exec i s = .next (reply r s) := by
  rcases portAnswer_cases s p with ⟨j, r', hj, hanswer, hexec⟩ | ⟨hnone, hstops⟩
  · obtain rfl := Except.ok.inj (hp.symm.trans hj)
    obtain ⟨-, hnext⟩ := hexec s rfl
    rw [hanswer, hnext]
    exact ⟨fun h => by rw [Option.some.inj h], fun h => congrArg some (reply_injective (Host.Outcome.next.inj h))⟩
  · obtain ⟨-, hstop⟩ := hstops s rfl
    rw [stepProbe, hp] at hstop
    rw [hnone]
    exact ⟨nofun, fun h => absurd h (hstop _)⟩

theorem portAnswer_eq_none_iff {s : State} {p : PortWord} :
    portAnswer s p = none ↔ ∀ i, decodePort p = .ok i → ∀ t, exec i s ≠ .next t := by
  constructor
  · intro hnone i hi t ht
    obtain ⟨r, rfl⟩ := exec_decodePort_next hi ht
    cases hnone.symm.trans ((portAnswer_eq_some_iff hi r).2 ht)
  · intro hstops
    rcases portAnswer_cases s p with ⟨i, r, hi, -, hexec⟩ | ⟨hnone, -⟩
    · obtain ⟨-, hnext⟩ := hexec s rfl
      exact absurd hnext (hstops i hi _)
    · exact hnone

theorem portsAnswer_eq_true {s : State} {p : PortWord} {r : PortResult} (hp : p ∈ s.probes)
    (h : portAnswer s p = some r) : portsAnswer s = true :=
  List.any_eq_true.2 ⟨p, hp, by rw [h]; rfl⟩

theorem portsAnswer_eq_false {s : State} (h : ∀ p ∈ s.probes, portAnswer s p = none) : portsAnswer s = false :=
  List.any_eq_false.2 fun p hp => by simp [h p hp]

/-- `s` with other operands and other results on its unit and look-up ports. -/
def withPorts (ps : List PortWord) (rs : List PortResult) (s : State) : State :=
  { s with probes := ps, portResults := rs }

@[simp] theorem withPorts_cfg (ps : List PortWord) (rs : List PortResult) (s : State) :
    (withPorts ps rs s).cfg = s.cfg := rfl
@[simp] theorem withPorts_rspReady (ps : List PortWord) (rs : List PortResult) (s : State) :
    (withPorts ps rs s).rspReady = s.rspReady := rfl
@[simp] theorem withPorts_cmds (ps : List PortWord) (rs : List PortResult) (s : State) :
    (withPorts ps rs s).cmds = s.cmds := rfl

/-- An outcome with its next state, if it answers one, changed by `f`. -/
def mapNext (f : State → State) : Host.Outcome State Fault Refusal → Host.Outcome State Fault Refusal
  | .next t => .next (f t)
  | .fault r => .fault r
  | .refused r => .refused r

/-- A frame operation does not look at the other ports, and leaves them as they are. -/
theorem exec_decodeCommand_withPorts (ps : List PortWord) (rs : List PortResult) (c : Command) (s : State) :
    exec (decodeCommand c) (withPorts ps rs s) = mapNext (withPorts ps rs) (exec (decodeCommand c) s) := by
  rw [exec_decodeCommand, exec_decodeCommand, withPorts_cfg]
  split
  · rcases answer_cases (resultOf s.cfg c) with ⟨r, hr⟩ | ⟨f, hf⟩
    · rw [hr, hr]
      rfl
    · rw [hf, hf]
      rfl
  · rfl

theorem stepIdle_withPorts (ps : List PortWord) (rs : List PortResult) (s : State) :
    stepIdle (withPorts ps rs s) = mapNext (withPorts ps rs) (stepIdle s) := by
  simp only [stepIdle, withPorts_cmds, withPorts_cfg]
  cases s.cmds with
  | nil => rfl
  | cons c rest => cases haccepts : accepts s.cfg c.input <;> simp only [haccepts] <;> rfl

theorem stepRespond_withPorts (ps : List PortWord) (rs : List PortResult) (r : Response) (s : State) :
    stepRespond r (withPorts ps rs s) = mapNext (withPorts ps rs) (stepRespond r s) := by
  rw [stepRespond, stepRespond, withPorts_rspReady]
  cases s.rspReady <;> rfl

/-- The handshake's move, stops included, does not depend on what stands on the ports and does not touch it. -/
theorem stepBlock_withPorts (ps : List PortWord) (rs : List PortResult) (s : State) :
    stepBlock (withPorts ps rs s) = mapNext (withPorts ps rs) (stepBlock s) := by
  cases hrst : s.rst with
  | true => rw [stepBlock_of_rst hrst, stepBlock_of_rst (s := withPorts ps rs s) hrst]; rfl
  | false =>
    rw [stepBlock_of_released hrst, stepBlock_of_released (s := withPorts ps rs s) hrst]
    cases hhs : s.hs with
    | idle =>
      rw [stepHandshake_of_idle hhs, stepHandshake_of_idle (s := withPorts ps rs s) hhs]
      exact stepIdle_withPorts ps rs s
    | busy c =>
      rw [stepHandshake_of_busy hhs, stepHandshake_of_busy (s := withPorts ps rs s) hhs]
      exact exec_decodeCommand_withPorts ps rs c s
    | respond r =>
      rw [stepHandshake_of_respond hhs, stepHandshake_of_respond (s := withPorts ps rs s) hhs]
      exact stepRespond_withPorts ps rs r s

/-- A step with no operand is the handshake's move, from which the move beside any operands follows. -/
theorem stepBlock_servePorts {s : State} {o : Host.Outcome State Fault Refusal}
    (h : step { s with probes := [] } = o) :
    stepBlock (servePorts s) = mapNext (withPorts (servePorts s).probes (servePorts s).portResults) o := by
  rw [← h, step_of_no_operand rfl]
  exact stepBlock_withPorts (servePorts s).probes (servePorts s).portResults { s with probes := [] }

/-- Settles O41: an answer is the operation's result, and the handshake's move is one and the same beside any operands. -/
theorem portsAnswerBesideTheHandshake : Obligations.PortsAnswerBesideTheHandshake := by
  intro s
  refine ⟨fun p i r hp => portAnswer_eq_some_iff hp r, fun p => portAnswer_eq_none_iff, rfl,
    fun u hmoves hu => step_of_next hmoves (stepBlock_servePorts hu),
    fun p hp r hr hwait => step_of_answer_waits (portsAnswer_eq_true hp hr) hwait, fun hnone hmoves => ?_⟩
  have hsilent := portsAnswer_eq_false hnone
  rw [step_of_moves hsilent hmoves]
  have hblock := stepBlock_servePorts (s := s) rfl
  rw [servePorts_of_none hsilent] at hblock
  rw [hblock]
  exact ⟨fun r hr => by rw [hr]; rfl, fun r hr => by rw [hr]; rfl⟩

theorem decodePort_of_encode {i : Instr} {p : PortWord} (hwf : i.wellFormed = true) (h : encode i = .port p) :
    decodePort p = .ok i := by
  have hdecode := decodeUndoesEncode i hwf
  rwa [h] at hdecode

theorem decodeCommand_of_encode {i : Instr} {c : Command} (hwf : i.wellFormed = true) (h : encode i = .command c) :
    decodeCommand c = i := by
  have hdecode := decodeUndoesEncode i hwf
  rw [h] at hdecode
  exact Except.ok.inj hdecode

theorem servePorts_of_single_next {s t : State} {p : PortWord} {i : Instr} (hp : s.probes = [p])
    (hi : decodePort p = .ok i) (ht : exec i { s with probes := [] } = .next t) : servePorts s = t := by
  rcases single_operand_cases hp hi with ⟨-, hexec⟩ | ⟨-, hexec, hstops⟩
  · exact Host.Outcome.next.inj (hexec.symm.trans ht)
  · exact absurd (hexec.symm.trans ht) (hstops t)

/-- Settles O39: what a well-formed operation encodes to decodes to it, on a port as in `BUSY`. -/
theorem stepRunsThePresentedOperation : Obligations.StepRunsThePresentedOperation := by
  intro s i hwf
  refine ⟨fun p r hp _ hexec => ?_, fun p hp hprobes => ?_, fun c hc hrst hbusy => ?_⟩
  · exact (portAnswer_eq_some_iff (decodePort_of_encode hwf hp) r).2 hexec
  · have hi := decodePort_of_encode hwf hp
    exact ⟨fun t ht => ⟨servePorts_of_single_next hprobes hi ht, fun u hu => step_of_single_next hprobes hi ht hu⟩,
      fun hwait => step_of_single_waits hprobes hi hwait⟩
  · obtain rfl := decodeCommand_of_encode hwf hc
    exact ⟨fun t ht => step_of_busy_next hrst hbusy ht, fun hprobes => step_of_busy hrst hprobes hbusy⟩

end Sys2Proof.Machine
end

section
/-! SUPPORT. An operation from its command to the delivery of its response, and a run of several (R106, R107, R125, R129). -/

namespace Sys2Proof.Machine

@[simp] theorem servePorts_accept (c : Command) (rest : List Command) (s : State) :
    servePorts (accept c rest s) = accept c rest (servePorts s) :=
  servePorts_with s (.busy c) rest s.responses

@[simp] theorem servePorts_present (r : Response) (s : State) : servePorts (present r s) = present r (servePorts s) :=
  servePorts_with s (.respond r) s.cmds s.responses

/-- `s` with the queue at `rest` and the responses `rs` delivered. -/
def answered (rest : List Command) (rs : List Response) (s : State) : State :=
  { s with cmds := rest, responses := s.responses ++ rs }

theorem answered_answered (rest rest' : List Command) (rs rs' : List Response) (s : State) :
    answered rest' rs' (answered rest rs s) = answered rest' (rs ++ rs') s := by
  simp only [answered, List.append_assoc]

theorem servePorts_answered (rest : List Command) (rs : List Response) (s : State) :
    servePorts (answered rest rs s) = answered rest rs (servePorts s) :=
  servePorts_with s s.hs rest (s.responses ++ rs)

theorem run_of_step (M : Host.Core) {s t : M.State} (h : M.step s = .next t) (k : Nat) :
    M.run (k + 1) s = M.run k t := by
  rw [Host.Core.run, h]

theorem run_add (M : Host.Core) {s t : M.State} {j : Nat} (h : M.run j s = .next t) (k : Nat) :
    M.run (j + k) s = M.run k t := by
  induction j generalizing s with
  | zero => cases h; rw [Nat.zero_add]
  | succ j ih =>
    rw [Host.Core.run] at h
    split at h
    next u hu => rw [Nat.add_right_comm, run_of_step M hu, ih h]
    next => cases h
    next => cases h

/-- Acceptance, computation and delivery, each beside the ports, which answer in the first of the three steps. -/
theorem run_operation {s : State} {c : Command} {rest : List Command} {r : Response} (hrst : s.rst = false)
    (hready : s.rspReady = true) (hidle : s.hs = .idle) (hcmds : s.cmds = c :: rest)
    (haccepts : accepts s.cfg c.input = true) (hr : responseTo s.cfg c = some r) :
    Host.Core.run core 3 s = .next (answered rest [r] (servePorts s)) := by
  have haccept := step_of_command hrst hidle hcmds haccepts
  have hcompute := step_of_response (s := accept c rest (servePorts s)) hrst rfl haccepts hr
  rw [servePorts_accept, servePorts_servePorts] at hcompute
  have hdeliver := step_of_taken (s := present r (accept c rest (servePorts s))) hrst rfl hready
  rw [servePorts_present, servePorts_accept, servePorts_servePorts] at hdeliver
  have hback : deliver r (present r (accept c rest (servePorts s))) = answered rest [r] (servePorts s) := by
    rw [deliver, ← (show (servePorts s).hs = .idle from hidle)]
    rfl
  exact (run_of_step core haccept 2).trans ((run_of_step core hcompute 1).trans
    ((run_of_step core hdeliver 0).trans (congrArg Host.Outcome.next hback)))

/-- Settles O47: the three moves of one operation, with the ports answering beside the first. -/
theorem acceptComputeDeliverIsOneAtomicOperation : Obligations.AcceptComputeDeliverIsOneAtomicOperation := by
  intro s c rest r hrst hready hidle hcmds haccepts hr
  have hrun := run_operation hrst hready hidle hcmds haccepts hr
  exact ⟨hrun, fun hprobes => by rw [hrun, servePorts_of_nil hprobes]; rfl⟩

/-- Only an overflowing group under FAULT leaves DECODE without an answer (R73, R103). -/
theorem decodeFrame_ne_overflow {cfg : Config} (hpolicy : cfg.overflow ≠ .fault) (f : Frame) :
    decodeFrame cfg f ≠ .error .overflow := by
  by_cases halign : f.length % 5 = 0
  · by_cases hmembers : ∀ c ∈ f, isMember cfg.alphabet c = true
    · obtain ⟨out, hout⟩ := exists_decodeFrame_ok hpolicy (isTextFrame_iff.2 ⟨halign, hmembers⟩)
      rw [hout]
      nofun
    · obtain ⟨p, c, hc, hnon, hbefore⟩ := exists_lowest_nonMember (a := cfg.alphabet) (f := f) (by simpa using hmembers)
      rw [decodeFrame_of_lowest_nonMember halign hc hnon hbefore (.inl hpolicy)]
      nofun
  · rw [decodeFrame_of_unaligned halign]
    nofun

theorem resultOf_ne_overflow {cfg : Config} (hpolicy : cfg.overflow ≠ .fault) (c : Command) :
    resultOf cfg c ≠ .error .overflow := by
  rw [resultOf]
  split
  · intro h
    obtain ⟨-, he⟩ := encodeFrame_eq_error_iff.1 h
    cases he
  · exact decodeFrame_ne_overflow hpolicy c.input

/-- Every command has a response, an error being one, where no group can fault (R56, R107). -/
theorem exists_responseTo {cfg : Config} (hpolicy : cfg.overflow ≠ .fault) (c : Command) :
    ∃ r, responseTo cfg c = some r := by
  have hne := resultOf_ne_overflow hpolicy c
  rw [responseTo]
  split
  next out _ => exact ⟨.ok out, rfl⟩
  next => exact ⟨.lengthError, rfl⟩
  next ch p _ => exact ⟨.invalidCharacter ch p, rfl⟩
  next h => exact absurd h hne

/-- A run over the commands waiting, by induction on them: each is one operation, the ports answering beside the first. -/
theorem run_commands (cs : List Command) {s : State} (hcs : s.cmds = cs) (hrst : s.rst = false)
    (hready : s.rspReady = true) (hidle : s.hs = .idle) (hpolicy : s.cfg.overflow ≠ .fault)
    (haccepts : ∀ c ∈ cs, accepts s.cfg c.input = true) :
    ∃ rs : List Response, cs.map (responseTo s.cfg) = rs.map some ∧
      Host.Core.run core (3 * cs.length) s = .next (answered [] rs (if cs.isEmpty then s else servePorts s)) := by
  induction cs generalizing s with
  | nil =>
    have hnone : answered [] [] s = s := by rw [answered, List.append_nil, ← hcs]
    exact ⟨[], rfl, congrArg Host.Outcome.next hnone.symm⟩
  | cons c rest ih =>
    obtain ⟨r, hr⟩ := exists_responseTo hpolicy c
    obtain ⟨hc, hrest⟩ := List.forall_mem_cons.1 haccepts
    have hrun := run_operation hrst hready hidle hcs hc hr
    obtain ⟨rs, hrs, hruns⟩ := ih (s := answered rest [r] (servePorts s)) rfl hrst hready hidle hpolicy hrest
    rw [servePorts_answered, servePorts_servePorts, ite_self, answered_answered] at hruns
    refine ⟨r :: rs, by rw [List.map_cons, List.map_cons, hr]; exact congrArg _ hrs, ?_⟩
    rw [List.length_cons, Nat.mul_add_one, Nat.add_comm, run_add core hrun]
    exact hruns

/-- Settles O48, by induction on the commands waiting. -/
theorem aRunAnswersEveryCommand : Obligations.ARunAnswersEveryCommand := by
  intro s hrst hready hidle hpolicy haccepts
  obtain ⟨rs, hrs, hrun⟩ := run_commands s.cmds rfl hrst hready hidle hpolicy haccepts
  refine ⟨rs, hrs, hrun.trans ?_⟩
  cases s.cmds.isEmpty <;> rfl

end Sys2Proof.Machine
end

section
/-! SUPPORT. Commands are answered one at a time in the order in which they are taken, along every run of host moves and
steps without `rst` (R121, R123, R125). -/

namespace Sys2Proof.Machine

/-- Settles O54: each move writes one input, and a presented command or operand stands last. -/
theorem hostMovesKeepTheAcceptedFrame : Obligations.HostMovesKeepTheAcceptedFrame := by
  intro m s
  cases m with
  | presentCommand c => exact ⟨rfl, rfl, rfl, rfl, ⟨[c], rfl⟩, ⟨[], List.append_nil _⟩⟩
  | presentOperand p => exact ⟨rfl, rfl, rfl, rfl, ⟨[], List.append_nil _⟩, ⟨[p], rfl⟩⟩
  | setRspReady _ | setRst _ => exact ⟨rfl, rfl, rfl, rfl, ⟨[], List.append_nil _⟩, ⟨[], List.append_nil _⟩⟩

/-- The commands a handshake has taken and not yet answered: the one in progress, or the one whose response waits. -/
def InFlight (cfg : Config) : Handshake → List Command → Prop
  | .idle, l => l = []
  | .busy c, l => l = [c]
  | .respond r, l => ∃ c, l = [c] ∧ responseTo cfg c = some r

/-- From `s` to `t`, `presented` standing last: what was in flight, waiting or presented is what was answered, what is in
flight and what is waiting, in that order; and the responses delivered are those to what was answered. -/
def AnswersInOrder (presented : List Command) (s t : State) : Prop :=
  t.cfg = s.cfg ∧ ∀ l, InFlight s.cfg s.hs l → ∃ (done l' : List Command) (rs : List Response),
    l ++ s.cmds ++ presented = done ++ l' ++ t.cmds ∧ done.map (responseTo s.cfg) = rs.map some ∧
      t.responses = s.responses ++ rs ∧ InFlight s.cfg t.hs l'

/-- Nothing is answered where the parameters and responses stay, and what is in flight or waiting grows at its end only. -/
theorem AnswersInOrder.of_none_answered {presented : List Command} {s t : State} (hcfg : t.cfg = s.cfg)
    (hresponses : t.responses = s.responses)
    (h : ∀ l, InFlight s.cfg s.hs l → ∃ l', l ++ s.cmds ++ presented = l' ++ t.cmds ∧ InFlight s.cfg t.hs l') :
    AnswersInOrder presented s t := by
  refine ⟨hcfg, fun l hl => ?_⟩
  obtain ⟨l', hqueue, hl'⟩ := h l hl
  exact ⟨[], l', [], hqueue, rfl, by rw [hresponses, List.append_nil], hl'⟩

theorem AnswersInOrder.refl (s : State) : AnswersInOrder [] s s :=
  .of_none_answered rfl rfl fun l hl => ⟨l, List.append_nil _, hl⟩

theorem AnswersInOrder.trans {p q : List Command} {s t u : State} (hst : AnswersInOrder p s t)
    (htu : AnswersInOrder q t u) : AnswersInOrder (p ++ q) s u := by
  obtain ⟨hcfg, hst⟩ := hst
  obtain ⟨hcfg', htu⟩ := htu
  refine ⟨hcfg'.trans hcfg, fun l hl => ?_⟩
  obtain ⟨done, l', rs, hqueue, hdone, hresponses, hl'⟩ := hst l hl
  rw [hcfg] at htu
  obtain ⟨done', l'', rs', hqueue', hdone', hresponses', hl''⟩ := htu l' hl'
  refine ⟨done ++ done', l'', rs ++ rs', ?_, by rw [List.map_append, List.map_append, hdone, hdone'],
    by rw [hresponses', hresponses, List.append_assoc], hl''⟩
  calc l ++ s.cmds ++ (p ++ q)
    _ = (l ++ s.cmds ++ p) ++ q := (List.append_assoc _ _ _).symm
    _ = done ++ (l' ++ t.cmds ++ q) := by rw [hqueue]; simp only [List.append_assoc]
    _ = done ++ done' ++ l'' ++ u.cmds := by rw [hqueue']; simp only [List.append_assoc]

/-- Each move of the handshake but the reset: acceptance takes the head of the queue, delivery answers what is in flight. -/
theorem stepBlock_answersInOrder {s t : State} (hrst : s.rst = false) (h : stepBlock s = .next t) :
    AnswersInOrder [] s t := by
  rcases stepBlock_cases h with ⟨hreset, -⟩ | ⟨-, -, -, rfl⟩ | ⟨-, hidle, c, rest, hcmds, -, rfl⟩ |
    ⟨-, c, hbusy, -, r, hr, rfl⟩ | ⟨-, r, hrespond, -, rfl⟩ | ⟨-, r, -, -, rfl⟩
  · cases hrst.symm.trans hreset
  · exact .refl t
  · refine .of_none_answered rfl rfl fun l hl => ⟨[c], ?_, rfl⟩
    rw [hidle] at hl
    rw [hl, hcmds, accept_cmds]
    exact List.append_nil _
  · refine .of_none_answered rfl rfl fun l hl => ⟨l, List.append_nil _, ?_⟩
    rw [hbusy] at hl
    exact ⟨c, hl, hr⟩
  · refine ⟨rfl, fun l hl => ?_⟩
    rw [hrespond] at hl
    obtain ⟨c, rfl, hr⟩ := hl
    exact ⟨[c], [], [r], List.append_nil _, by rw [List.map_singleton, hr, List.map_singleton], rfl, rfl⟩
  · exact .refl t

/-- The ports take no part in it. -/
theorem step_answersInOrder {s t : State} (hrst : s.rst = false) (h : step s = .next t) : AnswersInOrder [] s t := by
  rcases step_cases h with hblock | rfl
  · exact stepBlock_answersInOrder (s := servePorts s) hrst hblock
  · exact AnswersInOrder.refl s

theorem applyMove_cmds (m : HostMove) (s : State) : (applyMove m s).cmds = s.cmds ++ presentedCommands [.host m] := by
  cases m with
  | presentCommand _ => rfl
  | presentOperand _ | setRspReady _ | setRst _ => exact (List.append_nil _).symm

theorem applyMove_answersInOrder (m : HostMove) (s : State) :
    AnswersInOrder (presentedCommands [.host m]) s (applyMove m s) := by
  obtain ⟨hhs, hcfg, hresponses, -⟩ := hostMovesKeepTheAcceptedFrame m s
  refine .of_none_answered hcfg hresponses fun l hl => ⟨l, ?_, by rw [hhs]; exact hl⟩
  rw [applyMove_cmds, List.append_assoc]

theorem presentedCommands_host (m : HostMove) (es : List Event) :
    presentedCommands (.host m :: es) = presentedCommands [.host m] ++ presentedCommands es := by
  cases m <;> rfl

/-- A move that does not assert `rst` leaves it released. -/
theorem applyMove_rst {m : HostMove} {es : List Event} {s : State} (hrst : s.rst = false)
    (h : assertsRst (.host m :: es) = false) : (applyMove m s).rst = false ∧ assertsRst es = false := by
  cases m with
  | presentCommand _ | presentOperand _ | setRspReady _ => exact ⟨hrst, h⟩
  | setRst b => exact Bool.or_eq_false_iff.1 h

theorem runEvents_tick {es : List Event} {s t : State} (h : runEvents (.tick :: es) s = .next t) :
    ∃ u, step s = .next u ∧ runEvents es u = .next t := by
  rw [runEvents] at h
  split at h
  next u hu => exact ⟨u, hu, h⟩
  next => cases h
  next => cases h

theorem runEvents_answersInOrder {es : List Event} {s t : State} (hrst : s.rst = false)
    (hes : assertsRst es = false) (h : runEvents es s = .next t) : AnswersInOrder (presentedCommands es) s t := by
  induction es generalizing s with
  | nil => cases h; exact .refl t
  | cons e es ih =>
    cases e with
    | host m =>
      obtain ⟨hrst', hes'⟩ := applyMove_rst hrst hes
      rw [presentedCommands_host]
      exact (applyMove_answersInOrder m s).trans (ih hrst' hes' h)
    | tick =>
      obtain ⟨u, hu, hrun⟩ := runEvents_tick h
      obtain ⟨-, hrst', -⟩ := step_keeps hu
      exact (step_answersInOrder hrst hu).trans (ih (hrst'.trans hrst) hes hrun)

theorem InFlight.cases {cfg : Config} {hs : Handshake} {l : List Command} (h : InFlight cfg hs l) :
    (hs = .idle ∧ l = []) ∨
      ∃ c, l = [c] ∧ (hs = .busy c ∨ ∃ r, responseTo cfg c = some r ∧ hs = .respond r) := by
  cases hs with
  | idle => exact .inl ⟨rfl, h⟩
  | busy c => exact .inr ⟨c, h, .inl rfl⟩
  | respond r =>
    obtain ⟨c, hl, hr⟩ := h
    exact .inr ⟨c, hl, .inr ⟨r, hr, rfl⟩⟩

/-- Settles O49, by induction on the events of the run: an `IDLE` block has nothing in flight. -/
theorem responsesComeInTheOrderOfAcceptance : Obligations.ResponsesComeInTheOrderOfAcceptance := by
  intro es s t hidle hrst hes h
  obtain ⟨-, hanswers⟩ := runEvents_answersInOrder hrst hes h
  obtain ⟨done, l, rs, hqueue, hdone, hresponses, hl⟩ := hanswers [] (by rw [hidle]; rfl)
  exact ⟨done, l, rs, hqueue, hdone, hresponses, hl.cases⟩

end Sys2Proof.Machine
end

section
/-! SUPPORT. From a safe state nothing stops, and a step leaves a safe state (R107, R128, R129). -/

namespace Sys2Proof.Machine

/-- A well-formed operation of a port stops only on an overflowing group under FAULT. -/
theorem exec_port_answers {s : State} {i : Instr} {p : PortWord} (hpolicy : s.cfg.overflow ≠ .fault)
    (hwf : i.wellFormed = true) (hp : encode i = .port p) : ∃ t, exec i s = .next t := by
  cases i with
  | encode _ | decode _ => cases hp
  | enc32 _ | val _ => exact ⟨_, rfl⟩
  | sym v => exact ⟨_, exec_sym_of_lt s ((isDigitCode_iff v).1 hwf)⟩
  | dec5 d0 d1 d2 d3 d4 =>
    simp only [Instr.wellFormed, Bool.and_eq_true, isDigitCode_iff] at hwf
    obtain ⟨⟨⟨⟨h0, h1⟩, h2⟩, h3⟩, h4⟩ := hwf
    have hgroup := fieldsGroup_of_lt h0 h1 h2 h3 h4
    rcases dec5Under_cases s.cfg.overflow
      ⟨⟨d0.toNat, h0⟩, ⟨d1.toNat, h1⟩, ⟨d2.toNat, h2⟩, ⟨d3.toNat, h3⟩, ⟨d4.toNat, h4⟩⟩ with ⟨w, hw⟩ | ⟨-, hfault, -⟩
    · exact ⟨_, exec_dec5_of_ok hgroup hw⟩
    · exact absurd hfault hpolicy

theorem Safe.portAnswer_ne_none {s : State} (hs : Safe s) {p : PortWord} (hp : p ∈ s.probes) :
    portAnswer s p ≠ none := by
  intro hnone
  obtain ⟨i, hi⟩ := hs.operands p hp
  obtain ⟨hencode, hwf⟩ := decodePort_ok hi
  obtain ⟨t, ht⟩ := exec_port_answers hs.policy hwf hencode
  exact portAnswer_eq_none_iff.1 hnone i hi t ht

theorem Safe.of_servePorts {s : State} (hs : Safe s) : Safe (servePorts s) :=
  { hs with operands := fun p hp => hs.operands p (List.mem_of_mem_filter hp) }

/-- The handshake of a safe state makes its move or waits. -/
theorem Safe.stepBlock_answers {s : State} (hs : Safe s) : ∃ t, stepBlock s = .next t := by
  cases hrst : s.rst with
  | true => exact ⟨_, stepBlock_of_rst hrst⟩
  | false =>
    cases hhs : s.hs with
    | idle =>
      cases hcmds : s.cmds with
      | nil => exact ⟨s, stepBlock_of_waits (handshakeMoves_of_idle hrst hhs hcmds)⟩
      | cons c rest => exact ⟨_, stepBlock_of_command hrst hhs hcmds (hs.commands c (by simp [hcmds]))⟩
    | busy c =>
      obtain ⟨r, hr⟩ := exists_responseTo hs.policy c
      exact ⟨_, (stepBlock_of_busy hrst hhs).trans (exec_decodeCommand_of_response (hs.accepted c hhs) hr)⟩
    | respond r =>
      cases hready : s.rspReady with
      | true => exact ⟨_, stepBlock_of_taken hrst hhs hready⟩
      | false => exact ⟨s, stepBlock_of_waits (handshakeMoves_of_untaken hrst hhs hready)⟩

/-- Where the handshake waits for the host, the operands are answered, or there is none. -/
theorem Safe.step_answers {s : State} (hs : Safe s) : ∃ t, step s = .next t := by
  cases hmoves : handshakeMoves s with
  | true =>
    obtain ⟨t, ht⟩ := hs.of_servePorts.stepBlock_answers
    exact ⟨t, step_of_next hmoves ht⟩
  | false =>
    cases hprobes : s.probes with
    | nil => exact ⟨s, step_of_quiet hmoves hprobes⟩
    | cons p rest =>
      have hp : p ∈ s.probes := by simp [hprobes]
      obtain ⟨r, hr⟩ := Option.ne_none_iff_exists'.1 (hs.portAnswer_ne_none hp)
      exact ⟨_, step_of_answer_waits (portsAnswer_eq_true hp hr) hmoves⟩

/-- A step brings in no command and no operand: what is accepted or waits afterwards was presented before. -/
theorem Safe.of_step {s t : State} (hs : Safe s) (h : step s = .next t) : Safe t := by
  obtain ⟨hcfg, -, -, hprobes, -⟩ := step_keeps h
  have hoperands : ∀ p ∈ t.probes, ∃ i, decodePort p = .ok i := by
    rw [hprobes]
    exact hs.of_servePorts.operands
  rcases commandsWaitUntilIdle s t h with ⟨hcmds, hbusy⟩ | ⟨-, c, hcmds, hbusy, haccepts⟩
  · exact ⟨hcfg ▸ hs.policy, fun d hd => hcfg ▸ hs.accepted d (hbusy d hd), by rw [hcfg, hcmds]; exact hs.commands,
      hoperands⟩
  · refine ⟨hcfg ▸ hs.policy, fun d hd => ?_, fun d hd => ?_, hoperands⟩
    · cases hbusy.symm.trans hd
      exact hcfg ▸ haccepts
    · exact hcfg ▸ hs.commands d (by rw [hcmds]; exact List.mem_cons_of_mem c hd)

/-- Settles O50: a safe state stops nowhere and stays safe, and without FAULT every accepted command has a response. -/
theorem safeStatesRunOnForEver : Obligations.SafeStatesRunOnForEver := by
  refine ⟨fun s hs => ?_, fun s c hpolicy hrst hbusy haccepts => ?_⟩
  · obtain ⟨t, ht⟩ := hs.step_answers
    exact ⟨t, ht, hs.of_step ht⟩
  · obtain ⟨r, hr⟩ := exists_responseTo hpolicy c
    exact ⟨r, hr, step_of_response hrst hbusy haccepts hr⟩

end Sys2Proof.Machine
end

section
/-! SUPPORT. The phases of one operation, move by move (R16, R21, R133). -/

namespace Sys2Proof.Machine

theorem micro_of_over {cfg : Config} {c : Command} {w : Work} (hw : w.phase = .complete ∨ w.phase = .failed) :
    micro cfg c w = w := by
  rcases hw with hw | hw <;> simp only [micro, hw]

/-- All that a move out of `NOT_VALIDATED` can do: the length check passes, or it fails. -/
theorem micro_of_notValidated {cfg : Config} {c : Command} {w : Work} (hw : w.phase = .notValidated) :
    (micro cfg c w).g = w.g ∧
      ((micro cfg c w).phase = .inProgress ∧ c.input.length % blockSize c = 0 ∨
        (micro cfg c w).phase = .failed ∧ (micro cfg c w).raised = some .lengthError ∧
          c.input.length % blockSize c ≠ 0) := by
  by_cases halign : c.input.length % blockSize c = 0
  · rw [micro_of_aligned hw halign]
    exact ⟨rfl, .inl ⟨rfl, halign⟩⟩
  · rw [micro_of_misaligned hw halign]
    exact ⟨rfl, .inr ⟨rfl, rfl, halign⟩⟩

/-- All that a move inside the group loop can do: one group more, the end, or the error of a group. -/
theorem micro_of_inProgress {cfg : Config} {c : Command} {w : Work} (hw : w.phase = .inProgress) :
    ((micro cfg c w).phase = .inProgress ∧ (micro cfg c w).g = w.g + 1 ∧ w.g < groupCount c) ∨
    ((micro cfg c w).phase = .complete ∧ micro cfg c w = { w with phase := .complete } ∧ groupCount c ≤ w.g) ∨
    ((micro cfg c w).phase = .failed ∧ (micro cfg c w).out = [] ∧ (micro cfg c w).g = w.g ∧ w.g < groupCount c) := by
  by_cases hg : w.g < groupCount c
  · cases hout : groupOutput cfg c w.g with
    | ok o =>
      rw [micro_of_group hw hg hout]
      exact .inl ⟨hw, rfl, hg⟩
    | error e =>
      rw [micro_of_group_error hw hg hout]
      exact .inr (.inr ⟨rfl, rfl, rfl, hg⟩)
  · rw [micro_of_end hw hg]
    exact .inr (.inl ⟨rfl, rfl, Nat.le_of_not_lt hg⟩)

/-- Each move keeps the phase or raises its rank (R133). -/
theorem phaseRank_le_micro (cfg : Config) (c : Command) (w : Work) :
    phaseRank w.phase ≤ phaseRank (micro cfg c w).phase := by
  cases hw : w.phase with
  | notValidated => exact Nat.zero_le _
  | inProgress =>
    rcases micro_of_inProgress (cfg := cfg) (c := c) hw with ⟨h, -⟩ | ⟨h, -⟩ | ⟨h, -⟩ <;> rw [h] <;> decide
  | complete => rw [micro_of_over (.inl hw), hw]
  | failed => rw [micro_of_over (.inr hw), hw]

/-- Settles O57, phase by phase. -/
theorem phasesNeverGoBack : Obligations.PhasesNeverGoBack := fun cfg c w =>
  ⟨phaseRank_le_micro cfg c w, micro_of_notValidated, micro_of_inProgress, micro_of_over⟩

end Sys2Proof.Machine
end
